-- ==== Sys2Proof/Word.lean ====
section
/-! DEFINITION. The widths the block's words have (30_encoding.md R70, R77; 20_memory.md R50). -/

namespace Sys2Proof

/-- One cell of the SegmentBuffer, and one setting of the eight segment lines (R24, R27). -/
abbrev Byte := BitVec 8

/-- The 68-bit command word `cmd[67:0]` (R70). -/
abbrev CmdWord := BitVec 68

/-- The argument `cmd[63:0]` of a command, and the data of a response (R70, R75). -/
abbrev Arg := BitVec 64

/-- The 2-bit event word `evt[1:0]` (R77). -/
abbrev EvtWord := BitVec 2

/-- The address of a cell: the cell space has the addresses 0 to 5 and no other (R50, R63). -/
abbrev CellIdx := Fin 6

end Sys2Proof
end

