-- ==== Sys2Proof/Config.lean ====
section
/-! DEFINITION. The implementation parameters of 00_scope.md R5, and the free values. The tables a test can show wrong
(glyphs, month lengths, weekday table) are in Machine/Glyphs.lean and Machine/Calendar.lean. -/

namespace Sys2Proof.Config

/-- N_CELLS (R5). -/
def nCells : Nat := 6

/-- N_SEG: seven segments and the decimal point (R5). -/
def nSeg : Nat := 8

/-- SPRING_MONTH (R5): March. -/
def springMonth : Nat := 3

/-- AUTUMN_MONTH (R5): October. -/
def autumnMonth : Nat := 10

/-- DST_INSTANT (R5): hour, minute and second of WallClock. -/
def dstHour : Nat := 1
def dstMin : Nat := 0
def dstSec : Nat := 0

/-- YEAR_W = 16 (R5): YEAR counts modulo 65536. -/
def yearModulus : Nat := 65536

/-- SEG_ACTIVE and COL_ACTIVE (R5, D11): logic 1 is lit, logic 1 is selected. See log 15. -/
def segActiveHigh : Bool := true
def colActiveHigh : Bool := true

/-- FMT_EPS = 1/1000000 (R5, R208), as numerator and denominator. See log 15. -/
def fmtEpsNum : Nat := 1
def fmtEpsDen : Nat := 1000000

/-- The part of F_MUX_HZ that R5 leaves OPEN within 1000 to 2000 per second: how far the rate lies above 1000. A free
value; no rule depends on it (R127, log 14). DESIGN CHOICE, unsafe: the spec does not say that the rate is a whole number of
ticks per second; the model takes it as one (log 23). -/
opaque fMuxHzAbove1000 : Fin 1001

/-- F_MUX_HZ, refresh ticks per second (R5, R127), taken as a whole number (log 23). -/
def fMuxHz : Nat := 1000 + fMuxHzAbove1000.val

/-- CMD_LATENCY (R5, R275): finite, otherwise unspecified. A free value; no rule depends on it (log 14). -/
opaque cmdLatency : Nat

/-- DIM is defined only for months 1 to 12 (R141). Outside them its value is free; no reachable state asks for it (R22,
R150, log 8). -/
opaque monthLenOutside : Nat → Nat

/-- The weekday table SAK has the indices 0 to 11 only (R142). Outside them its value is free (log 8). -/
opaque sakOutside : Nat → Nat

end Sys2Proof.Config
end

