-- ==== Sys2Proof/Syntax.lean ====
section
/-! DEFINITION. The ten commands and two events of 30_encoding.md R72 and R77, one constructor per row of
spec/opcode_table.json. -/

namespace Sys2Proof

/-- The time record of R76: the operand of SETTIME and the response data of RDTIME and RDLOCAL. Each field has the width
of its byte-aligned place in the word, so that out-of-range values can be written down. -/
structure TimeRecord where
  sec : BitVec 8
  min : BitVec 8
  hour : BitVec 8
  day : BitVec 8
  month : BitVec 8
  year : BitVec 16
  tz : BitVec 1
deriving DecidableEq, Repr

/-- What an agent of the block can be told to execute (R1, R72, R77). -/
inductive Instr where
  /-- 0x0, format Z (R104). -/
  | nop
  /-- 0x1, format CW: SB[idx] <- data (R105). -/
  | wrcell (idx : BitVec 3) (data : Byte)
  /-- 0x2, format CR: respond SB[idx] (R106). -/
  | rdcell (idx : BitVec 3)
  /-- 0x3, format I: render a signed 64-bit integer (R186). -/
  | fmtint (ival : BitVec 64)
  /-- 0x4, format F: render a binary32 pattern (R212). -/
  | fmtflt (fval : BitVec 32)
  /-- 0x5, format T: replace WallClock and TZ (R147). -/
  | settime (record : TimeRecord)
  /-- 0x6, format Z: respond WallClock and TZ (R148). -/
  | rdtime
  /-- 0x7, format Z: respond LocalClock (R171). -/
  | rdlocal
  /-- 0x8, format Z: MUX_ON <- 1 (R123). -/
  | muxon
  /-- 0x9, format Z: MUX_ON <- 0, display dark (R124). -/
  | muxoff
  /-- Event bit evt[0]: one reference second (R144). -/
  | tick1hz
  /-- Event bit evt[1]: one refresh tick (R120, R122). -/
  | tickmux
deriving DecidableEq, Repr

/-- Why a command is refused: the two forms of `raise` (R7, R230, R231). -/
inductive Reject where
  /-- A reserved opcode, 0xA to 0xF (R73). -/
  | illegalOp
  /-- A reserved argument bit that is 1, or a field out of range (R74). -/
  | illegalArg
deriving DecidableEq, Repr

end Sys2Proof
end

