-- ==== Sys2Proof/Machine/State.lean ====
section
/-! DEFINITION. All the state of the block (10_state.md R20, R34), the ports (30_encoding.md R78), and the state after
reset (R33, 70_reset_and_hazards.md R260). -/

namespace Sys2Proof.Machine

/-- WallClock, the reference time that never shifts with daylight saving (R21). Read and written as one record (R60). -/
structure WallClock where
  sec : BitVec 6
  min : BitVec 6
  hour : BitVec 5
  day : BitVec 5
  month : BitVec 4
  year : BitVec 16
deriving DecidableEq, Repr

/-- The SegmentBuffer: the cells whose byte is not 0x00, addresses strictly rising (R24, R50; log 13). -/
abbrev Memory := List Host.Cell

/-- A six-byte frame `c[0..5]`, `c0` the leading cell (44_fmt_int.md). -/
structure Frame where
  c0 : Byte
  c1 : Byte
  c2 : Byte
  c3 : Byte
  c4 : Byte
  c5 : Byte
deriving DecidableEq, Repr

/-- The in-flight work of a format command: its whole frame and the index of the next cell to write (R34, R188). -/
structure FrameWrite where
  frame : Frame
  next : CellIdx
deriving DecidableEq, Repr

/-- The status of a response (R75). The value 3 is never produced, so there are three (U7). -/
inductive Status where
  | ok
  | illegalOp
  | illegalArg
deriving DecidableEq, Repr

/-- One response: `rsp_status` and `rsp_data`, valid with `rsp_valid` (R75, R78). -/
structure Response where
  status : Status
  data : BitVec 64
deriving DecidableEq, Repr

/-- What moves next. The order of the slots is the total order of steps of R58; every order is admitted (log 1, log 22). -/
inductive Slot where
  /-- The command agent's turn: the next cell write of a format command, or the next command of the host. -/
  | command
  /-- An event word on the two tick inputs (R77). -/
  | events (e : EvtWord)
  /-- The host drives `rst_n` to this level (R260, R261). -/
  | rst (level : Bool)
deriving DecidableEq, Repr

/-- The state of the block. The first eight fields are the registers of R20, `flight` is the in-flight work of R34, and
the last four carry the ports (log 1). -/
structure State where
  /-- SEC, MIN, HOUR, DAY, MONTH, YEAR (R21). -/
  wall : WallClock
  /-- TZ: daylight saving active (R23). -/
  tz : BitVec 1
  /-- SB[0..5] (R24). -/
  sb : Memory
  /-- CURSOR: the cell made active by the last TICKMUX step taken while running (R25). -/
  cursor : BitVec 3
  /-- MUX_ON: the multiplexer runs (R26). -/
  muxOn : Bool
  /-- SEG_OUT: the segment lines (R27). -/
  segOut : Byte
  /-- COL_OUT: the column selects, bit i for cell i (R27). -/
  colOut : BitVec 6
  /-- The unwritten cells of a format command in progress (R34, R188). -/
  flight : Option FrameWrite
  /-- The response given by the step just taken, if it gave one (R75, log 3). -/
  rsp : Option Response
  /-- The command words the host still has to offer, in issue order (R78, R267). -/
  cmds : List CmdWord
  /-- Which agent or input moves next (R58). -/
  schedule : List Slot
  /-- The level of `rst_n`; reset is asserted while it is low (R260). -/
  rstN : Bool
deriving DecidableEq, Repr

/-- Why the machine stops with a fault: never. "The treatments fault and stuck are used nowhere: no behaviour of this
block traps, and none hangs it" (93_implementation_defined.md; log 18). Nothing raises one, which is neither safe nor
unsafe but the spec's own word. -/
inductive Fault where
deriving DecidableEq, Repr

/-- Why an instruction has no meaning. -/
inductive Refusal where
  /-- Raised by an arm of `exec` whose instruction has no meaning yet; safe. No arm raises it now. -/
  | notModelled (mnemonic : String)
deriving DecidableEq, Repr

/-- RESET_TIME: 2013-01-01 00:00:00 (R33). -/
def WallClock.reset : WallClock where
  sec := 0
  min := 0
  hour := 0
  day := 1
  month := 1
  year := 2013

/-- The machine right after reset (R33, R260): nothing in flight, the display dark, no input waiting (log 7). -/
def State.reset : State where
  wall := WallClock.reset
  tz := 0
  sb := []
  cursor := 0
  muxOn := false
  segOut := 0x00
  colOut := 0b000000
  flight := none
  rsp := none
  cmds := []
  schedule := []
  rstN := true

end Sys2Proof.Machine
end

