-- ==== Sys2Proof/Machine/Glyphs.lean ====
section
/-! DEFINITION. The glyphs of 40_segment_model.md R100 to R103, in the bit layout of 20_memory.md R52. -/

namespace Sys2Proof.Machine

/-- DP: the decimal point, bit 7 (R52, R102). -/
def dp : Byte := 0x80

/-- BLANK: an unlit cell (R101). -/
def blank : Byte := 0x00

/-- MINUS: segment g alone (R101). -/
def minus : Byte := 0x40

/-- DIG (R100). -/
def digTable : Vector Byte 10 :=
  #v[0x3F, 0x06, 0x5B, 0x4F, 0x66, 0x6D, 0x7D, 0x07, 0x7F, 0x6F]

/-- `DIG[d]` (R100). -/
def dig (d : Fin 10) : Byte := digTable[d]

/-- `GLYPH('E')` (R101), which begins every exponent. -/
def glyphE : Byte := 0x79

/-- `GLYPH(c)` for the characters of R100 and R101, none for any other. -/
def glyph (c : Char) : Option Byte :=
  match c with
  | '0' => some (dig 0) | '1' => some (dig 1) | '2' => some (dig 2) | '3' => some (dig 3) | '4' => some (dig 4)
  | '5' => some (dig 5) | '6' => some (dig 6) | '7' => some (dig 7) | '8' => some (dig 8) | '9' => some (dig 9)
  | ' ' => some blank | '-' => some minus
  | 'A' => some 0x77 | 'b' => some 0x7C | 'C' => some 0x39 | 'd' => some 0x5E
  | 'E' => some glyphE | 'e' => some 0x7B | 'f' => some 0x71 | 'g' => some 0x6F
  | 'H' => some 0x76 | 'I' => some 0x30 | 'L' => some 0x38 | 'l' => some 0x30
  | 'N' => some 0x37 | 'n' => some 0x54 | 'O' => some 0x3F | 'o' => some 0x5C
  | 'R' => some 0x50 | 'r' => some 0x50 | 'S' => some 0x6D | 't' => some 0x78
  | _ => none

/-- The frame of a list of at most six bytes from the leading cell on, the rest blank. -/
def frameOf (l : List Byte) : Frame where
  c0 := l.getD 0 blank
  c1 := l.getD 1 blank
  c2 := l.getD 2 blank
  c3 := l.getD 3 blank
  c4 := l.getD 4 blank
  c5 := l.getD 5 blank

/-- `MSG(s)`: the text from the leading cell on, unused trailing cells blank (R103). Defined for at most six characters,
each with a glyph (log 17). -/
def msg (text : String) : Option Frame :=
  if text.toList.length ≤ 6 then (text.toList.mapM glyph).map frameOf else none

/-- MSG("Error") (R103). -/
def msgError : Frame := ⟨0x79, 0x50, 0x50, 0x5C, 0x50, 0x00⟩

/-- MSG("Inf") (R103). -/
def msgInf : Frame := ⟨0x30, 0x54, 0x71, 0x00, 0x00, 0x00⟩

/-- MSG("negInf") (R103). -/
def msgNegInf : Frame := ⟨0x54, 0x7B, 0x6F, 0x30, 0x54, 0x71⟩

end Sys2Proof.Machine
end

