-- ==== Sys2Proof/Machine/Format.lean ====
section
/-! DEFINITION. The pieces the two formatters share: the sign frame (44_fmt_int.md R180), the exponent cells (R185), the
layout of a scientific frame (R184, R210) and the integer formatter itself (R181 to R187). All of it is pure: a frame is a
function of the operand alone. -/

namespace Sys2Proof.Machine

/-- `n`, the number of cells available to digits (R180). -/
def digitCells (neg : Bool) : Nat := if neg then 5 else 6

/-- The cells before the first digit cell: the minus sign is always in cell 0 (R180). -/
def signCells (neg : Bool) : List Byte := if neg then [minus] else []

/-- The decimal digit of weight 10^k (R182). -/
def digitAt (m k : Nat) : Fin 10 := ⟨(m / 10 ^ k) % 10, Nat.mod_lt _ (by decide)⟩

/-- The `k` most significant digits of a number of k digits, the leading one first (R184, R208). -/
def digitsOf (q k : Nat) : List (Fin 10) :=
  (List.range k).map fun i => digitAt q (k - 1 - i)

/-- The digit glyphs of a list of digits, with the decimal point lit on digit number `point` (R102, R184, R209). -/
def digitGlyphs (point : Nat) (ds : List (Fin 10)) : List Byte :=
  ds.mapIdx fun i d => if i = point then dig d ||| dp else dig d

/-- EXPCELLS(e), for -99 <= e <= 99 (R185). The remainders by ten only keep the function total outside that range, which no
operand reaches (log 19). -/
def expCells (e : Int) : List Byte :=
  let k := e.natAbs
  if e ≥ 10 then [glyphE, dig (digitAt k 1), dig (digitAt k 0)]
  else if e ≥ 0 then [glyphE, dig (digitAt k 0), blank]
  else if e ≥ -9 then [glyphE, minus, dig (digitAt k 0)]
  else [glyphE, minus, dig (digitAt k 1), dig (digitAt k 0)]

/-- A scientific frame: sign, mantissa digits with the point after the first, exponent cells ending in cell 5 (R184,
R210). -/
def sciFrame (neg : Bool) (mantissa : List (Fin 10)) (e : Int) : Frame :=
  frameOf (signCells neg ++ digitGlyphs 0 mantissa ++ expCells e)

/-- The frame of zero (R181, R204). -/
def zeroFrame : Frame := ⟨blank, blank, blank, blank, blank, dig 0⟩

/-- The cell of weight 10^k in the fixed form: a leading zero is a blank (R182). -/
def fixedCell (mag k : Nat) : Byte :=
  if k = 0 ∨ mag ≥ 10 ^ k then dig (digitAt mag k) else blank

/-- Fixed form of a magnitude below 10^n: right-justified, no decimal point (R182). -/
def intFixed (neg : Bool) (mag : Nat) : Frame :=
  let n := digitCells neg
  frameOf (signCells neg ++ (List.range n).map fun i => fixedCell mag (n - 1 - i))

/-- The search for the decade of a magnitude, from the exponent given downward. -/
def decadeFrom (mag : Nat) : Nat → Nat
  | 0 => 0
  | e + 1 => if 10 ^ (e + 1) ≤ mag then e + 1 else decadeFrom mag e

/-- The integer e with 10^e <= mag < 10^(e+1), exact on the integer; a 64-bit magnitude has e <= 18 (R183). -/
def decade (mag : Nat) : Nat := decadeFrom mag 18

/-- The mantissa of `nm` digits rounded to nearest, ties away from zero, and its exponent, renormalised when the rounding
carries out of the leading digit (R184). -/
def roundMantissa (mag nm : Nat) : Nat × Nat :=
  let e := decade mag
  let s := e - nm + 1
  let q := (mag + 10 ^ s / 2) / 10 ^ s
  if q = 10 ^ nm then (10 ^ (nm - 1), e + 1) else (q, e)

/-- Scientific form of a magnitude of at least 10^n (R183, R184). -/
def intSci (neg : Bool) (mag : Nat) : Frame :=
  let nm := digitCells neg - 3
  let (q, e) := roundMantissa mag nm
  sciFrame neg (digitsOf q nm) e

/-- The frame of FMTINT (R186). The magnitude of -2^63 is 2^63, never negated in 64 bits (R187). -/
def intFrame (x : Int) : Frame :=
  if x = 0 then zeroFrame
  else
    let neg := decide (x < 0)
    let mag := x.natAbs
    if mag < 10 ^ digitCells neg then intFixed neg mag else intSci neg mag

end Sys2Proof.Machine
end

