-- ==== Sys2Proof/Machine/FmtFloat.lean ====
section
/-! DEFINITION. The float formatter of 45_fmt_float.md R200 to R212, in exact arithmetic on fractions of natural numbers
(R211): no floating-point operation anywhere. -/

namespace Sys2Proof.Machine

/-- An exact non-negative rational, numerator over denominator, not reduced (R8, R211). -/
structure Frac where
  num : Nat
  den : Nat
deriving DecidableEq, Repr

/-- The fields of a binary32 pattern (R200). -/
def fltNeg (v : BitVec 32) : Bool := v.getLsbD 31
def fltExp (v : BitVec 32) : Nat := (v.extractLsb' 23 8).toNat
def fltFrac (v : BitVec 32) : Nat := (v.extractLsb' 0 23).toNat

/-- The classes of R201. -/
inductive FloatClass where
  | nan
  | infinity
  | zero
  | finite
deriving DecidableEq, Repr

/-- The class of a pattern, tested in the order of R201. -/
def classify (v : BitVec 32) : FloatClass :=
  if fltExp v = 255 ∧ fltFrac v ≠ 0 then .nan
  else if fltExp v = 255 ∧ fltFrac v = 0 then .infinity
  else if fltExp v = 0 ∧ fltFrac v = 0 then .zero
  else .finite

/-- The magnitude V of a finite pattern: fr * 2^(-149), or (2^23 + fr) * 2^(ex - 150) (R200). -/
def magnitude (v : BitVec 32) : Frac :=
  if fltExp v = 0 then ⟨fltFrac v, 2 ^ 149⟩
  else ⟨(2 ^ 23 + fltFrac v) * 2 ^ fltExp v, 2 ^ 150⟩

/-- V / 10^p for an integer p of either sign. -/
def Frac.divPow10 (v : Frac) (p : Int) : Frac :=
  ⟨v.num * 10 ^ (-p).toNat, v.den * 10 ^ p.toNat⟩

/-- 10^p <= V, by exact comparison (R207). -/
def Frac.geTenPow (v : Frac) (p : Int) : Bool :=
  decide ((v.divPow10 p).den ≤ (v.divPow10 p).num)

/-- The search for the order of magnitude, from p downward. -/
def orderFrom (v : Frac) : Nat → Int → Int
  | 0, p => p
  | k + 1, p => if v.geTenPow p then p else orderFrom v k (p - 1)

/-- The integer p with 10^p <= V < 10^(p+1), in -45 to 38 for every finite nonzero binary32 (R207). -/
def order (v : Frac) : Int := orderFrom v 83 38

/-- Scientific form is chosen when V < 1/1000 or V > 10^n - 1 (R206). -/
def isSci (n : Nat) (v : Frac) : Bool :=
  decide (v.num * 1000 < v.den) || decide (v.num > (10 ^ n - 1) * v.den)

/-- w + FMT_EPS (R208). -/
def Frac.addEps (w : Frac) : Frac :=
  ⟨w.num * Config.fmtEpsDen + Config.fmtEpsNum * w.den, w.den * Config.fmtEpsDen⟩

/-- BIAS(w, q): the bias added once, renormalised by a decade when the sum reaches 10 (R208). -/
def bias (w : Frac) (q : Int) : Frac × Int :=
  let W := w.addEps
  if W.num ≥ 10 * W.den then (⟨W.num, W.den * 10⟩, q + 1) else (W, q)

/-- DIGITS(W, k): the k digits of floor(W * 10^(k-1)), truncated (R208). -/
def digits (W : Frac) (k : Nat) : List (Fin 10) :=
  digitsOf (W.num * 10 ^ (k - 1) / W.den) k

/-- Fixed form: every digit cell carries a digit, the point lit on the digit of weight one (R209). -/
def fltFixed (neg : Bool) (V : Frac) : Frame :=
  let pp := max (order V) 0
  let (W, pp) := bias (V.divPow10 pp) pp
  frameOf (signCells neg ++ digitGlyphs pp.toNat (digits W (digitCells neg)))

/-- Scientific form: the layout is chosen from the exponent after the bias, the mantissa is truncated (R210). -/
def fltSci (neg : Bool) (V : Frac) : Frame :=
  let (W, e) := bias (V.divPow10 (order V)) (order V)
  sciFrame neg (digits W (digitCells neg - (expCells e).length)) e

/-- The frame of FMTFLT (R212). -/
def floatFrame (v : BitVec 32) : Frame :=
  match classify v with
  | .nan => msgError
  | .infinity => if fltNeg v then msgNegInf else msgInf
  | .zero => zeroFrame
  | .finite =>
    if isSci (digitCells (fltNeg v)) (magnitude v) then fltSci (fltNeg v) (magnitude v)
    else fltFixed (fltNeg v) (magnitude v)

end Sys2Proof.Machine
end

