-- ==== Sys2Proof/Machine/Calendar.lean ====
section
/-! DEFINITION. The calendar functions of 42_rtc.md R140 to R143 and R149, on mathematical integers (00_scope.md R8). -/

namespace Sys2Proof.Machine

/-- LEAP(y) (R140), the tests in the document's order. -/
def leap (y : Nat) : Bool :=
  if y % 400 = 0 then true
  else if y % 100 = 0 then false
  else if y % 4 = 0 then true
  else false

/-- MLEN (R141), the month numbered from 1. Outside 1 to 12 a free value (log 8). -/
def monthLen : Nat → Nat
  | 1 => 31 | 2 => 28 | 3 => 31 | 4 => 30 | 5 => 31 | 6 => 30
  | 7 => 31 | 8 => 31 | 9 => 30 | 10 => 31 | 11 => 30 | 12 => 31
  | m => Config.monthLenOutside m

/-- DIM(y, m), days in month m of year y (R141). -/
def dim (y m : Nat) : Nat :=
  if m = 2 ∧ leap y = true then 29 else monthLen m

/-- SAK (R142), the month numbered from 1. Outside 1 to 12 a free value (log 8). -/
def sak : Nat → Nat
  | 1 => 0 | 2 => 3 | 3 => 2 | 4 => 5 | 5 => 0 | 6 => 3
  | 7 => 5 | 8 => 1 | 9 => 4 | 10 => 6 | 11 => 2 | 12 => 4
  | m => Config.sakOutside m

/-- The year Sakamoto's method counts from: January and February belong to the year before, which is -1 for year 0
(R142, R151). -/
def sakYear (y m : Nat) : Int :=
  if m < 3 then (y : Int) - 1 else y

/-- DOW(y, m, d), 0 = Sunday to 6 = Saturday, with floor division and non-negative remainder (R142). -/
def dow (y m d : Nat) : Nat :=
  let y' := sakYear y m
  ((y' + y' / 4 - y' / 100 + y' / 400 + (sak m : Int) + (d : Int)) % 7).toNat

/-- The backward scan of R143 from day `d`. It ends within seven probes, so the value at 0 is never given. -/
def lastSunFrom (y m : Nat) : Nat → Nat
  | 0 => 0
  | d + 1 => if dow y m (d + 1) = 0 then d + 1 else lastSunFrom y m d

/-- LASTSUN(y, m), scanning backward from day 31 (R143). -/
def lastSun (y m : Nat) : Nat :=
  lastSunFrom y m 31

/-- VALIDTIME (R149). The month is tested before DIM is asked for it. -/
def validTime (sec min hour day month year : Nat) : Bool :=
  decide (sec ≤ 59) && decide (min ≤ 59) && decide (hour ≤ 23) && decide (1 ≤ month) && decide (month ≤ 12) &&
    decide (1 ≤ day) && decide (day ≤ dim year month)

end Sys2Proof.Machine
end

