-- ==== Sys2Proof/Machine/Operands.lean ====
section
/-! DEFINITION. The operand forms of the commands (30_encoding.md R71, R76, R81): the direct cell index, the signed
integer, the time record. There is no other addressing mode. -/

namespace Sys2Proof.Machine

/-- The cell a 3-bit index field addresses: 6 and 7 address nothing (R54, R63). -/
def cellIdx? (idx : BitVec 3) : Option CellIdx :=
  if h : idx.toNat < 6 then some ⟨idx.toNat, h⟩ else none

/-- The signed operand of FMTINT, `sext_64(arg)` (R71, R186). -/
def signedOperand (ival : BitVec 64) : Int :=
  ival.toInt

/-- What SETTIME accepts: a year of 1 to 65535 and a valid time (R76, R147). -/
def settable (r : TimeRecord) : Bool :=
  decide (r.year.toNat ≠ 0) &&
    validTime r.sec.toNat r.min.toNat r.hour.toNat r.day.toNat r.month.toNat r.year.toNat

end Sys2Proof.Machine
end

