-- ==== Sys2Proof/Machine/Ops.lean ====
section
/-! DEFINITION. The named operations over the SegmentBuffer and the response port (20_memory.md R50 to R59;
30_encoding.md R75; 60_exceptions.md R230; 44_fmt_int.md R188). -/

namespace Sys2Proof.Machine

/-- What a cell nobody has written reads as: SB resets to 0x00 in every cell (R33). -/
def resetCell : Byte := 0x00

/-- `MemRead(i, 1)`: the byte of cell i (R50). -/
def Memory.read : Memory → CellIdx → Byte
  | [], _ => resetCell
  | (a, b) :: m, i => if a = i.val then b else Memory.read m i

/-- `MemWrite(i, 1, v)`: SB[i] <- v (R50). Keeps the list canonical: writing the byte an unlisted cell reads as removes
the entry (log 13). -/
def Memory.write : Memory → CellIdx → Byte → Memory
  | [], i, v => if v = resetCell then [] else [(i.val, v)]
  | (a, b) :: m, i, v =>
    if a < i.val then (a, b) :: Memory.write m i v
    else
      let rest := if a = i.val then m else (a, b) :: m
      if v = resetCell then rest else (i.val, v) :: rest

/-- The canonical form from address `lo` up: addresses strictly rising and below 6, no entry equal to the reset byte. -/
def Memory.wfFrom : Nat → Memory → Bool
  | _, [] => true
  | lo, (a, b) :: m => decide (lo ≤ a) && decide (a < 6) && decide (b ≠ resetCell) && Memory.wfFrom (a + 1) m

/-- The memory is in its one canonical form (log 13). -/
def Memory.wf (m : Memory) : Bool := Memory.wfFrom 0 m

/-- The byte of cell i of a frame. -/
def Frame.cell (c : Frame) : CellIdx → Byte
  | 0 => c.c0
  | 1 => c.c1
  | 2 => c.c2
  | 3 => c.c3
  | 4 => c.c4
  | 5 => c.c5

/-- `respond(v)`: the command ends with status OK and data v (R7, R75). -/
def respond (v : BitVec 64) (s : State) : State :=
  { s with rsp := some ⟨.ok, v⟩ }

/-- The status code word `rsp_status` of a refusal (R75). -/
def Reject.status : Reject → Status
  | .illegalOp => .illegalOp
  | .illegalArg => .illegalArg

/-- `raise`: the block's only exception. It changes no state, saves nothing, changes no mode and goes nowhere; the
response carries the status and data 0 (R7, R230, R236). There is no return from it. -/
def raise (r : Reject) (s : State) : State :=
  { s with rsp := some ⟨Reject.status r, 0⟩ }

/-- The pure computation of a format command is done: its frame is in flight, cell 0 next (R9, R188). -/
def startFormat (c : Frame) (s : State) : State :=
  { s with flight := some ⟨c, 0⟩ }

/-- The write-out after the write of cell i: the next cell in ascending order, or nothing after cell 5 (R188). -/
def FrameWrite.advance (f : FrameWrite) : Option FrameWrite :=
  if h : f.next.val + 1 < 6 then some ⟨f.frame, ⟨f.next.val + 1, h⟩⟩ else none

/-- One cell write of a format command, an atomic step of its own; the write of cell 5 completes the command, which
responds OK with data 0 (R188; log 4). -/
def writeNextCell (f : FrameWrite) (s : State) : State :=
  { s with
    sb := s.sb.write f.next (f.frame.cell f.next)
    flight := f.advance
    rsp := if f.advance.isSome then s.rsp else some ⟨.ok, 0⟩ }

end Sys2Proof.Machine
end

