-- ==== Sys2Proof/Machine/Cells.lean ====
section
/-! DEFINITION. The commands that reach the SegmentBuffer: NOP, WRCELL, RDCELL (40_segment_model.md R104 to R106), FMTINT
(44_fmt_int.md R186) and FMTFLT (45_fmt_float.md R212). -/

namespace Sys2Proof.Machine

/-- NOP (R104). -/
def execNop (s : State) : Host.Outcome State Fault Refusal :=
  .next (respond 0 s)

/-- WRCELL idx, data: SB[idx] <- data; an index of 6 or 7 is refused (R105). -/
def execWrcell (idx : BitVec 3) (data : Byte) (s : State) : Host.Outcome State Fault Refusal :=
  match cellIdx? idx with
  | some i => .next (respond 0 { s with sb := s.sb.write i data })
  | none => .next (raise .illegalArg s)

/-- RDCELL idx: respond SB[idx] zero-extended; an index of 6 or 7 is refused (R106). -/
def execRdcell (idx : BitVec 3) (s : State) : Host.Outcome State Fault Refusal :=
  match cellIdx? idx with
  | some i => .next (respond ((s.sb.read i).setWidth 64) s)
  | none => .next (raise .illegalArg s)

/-- FMTINT: the frame of the operand is computed and its six cell writes begin (R186, R188). -/
def execFmtint (ival : BitVec 64) (s : State) : Host.Outcome State Fault Refusal :=
  .next (startFormat (intFrame (signedOperand ival)) s)

/-- FMTFLT: the frame of the operand is computed and its six cell writes begin (R212, R188). -/
def execFmtflt (fval : BitVec 32) (s : State) : Host.Outcome State Fault Refusal :=
  .next (startFormat (floatFrame fval) s)

end Sys2Proof.Machine
end

