-- ==== Sys2Proof/Decode.lean ====
section
/-! DEFINITION. The decoder of 30_encoding.md R70 to R79, total on all 2^68 command words and all four event words, and
the encoder written from the same tables. -/

namespace Sys2Proof

/-- A word on one of the block's two instruction ports (R78): the command port or the pair of tick inputs. -/
inductive PortWord where
  | cmd (w : CmdWord)
  | evt (e : EvtWord)
deriving DecidableEq, Repr

/-- `op = cmd[67:64]` (R70). -/
def opOf (w : CmdWord) : BitVec 4 := w.extractLsb' 64 4

/-- `arg = cmd[63:0]` (R70). -/
def argOf (w : CmdWord) : Arg := w.extractLsb' 0 64

/-- Format Z: the whole argument is reserved (R71, R74). -/
def formatZ (arg : Arg) (i : Instr) : Except Reject Instr :=
  if arg = 0 then .ok i else .error .illegalArg

/-- Format CW: data = arg[7:0], idx = arg[10:8], arg[63:11] reserved (R71). -/
def formatCW (arg : Arg) : Except Reject Instr :=
  if arg.extractLsb' 11 53 = 0 then .ok (.wrcell (arg.extractLsb' 8 3) (arg.extractLsb' 0 8))
  else .error .illegalArg

/-- Format CR: idx = arg[10:8], arg[7:0] and arg[63:11] reserved (R71). -/
def formatCR (arg : Arg) : Except Reject Instr :=
  if arg.extractLsb' 11 53 = 0 ∧ arg.extractLsb' 0 8 = 0 then .ok (.rdcell (arg.extractLsb' 8 3))
  else .error .illegalArg

/-- Format I: the whole argument is the operand (R71). -/
def formatI (arg : Arg) : Except Reject Instr :=
  .ok (.fmtint arg)

/-- Format F: fval = arg[31:0], arg[63:32] reserved (R71). -/
def formatF (arg : Arg) : Except Reject Instr :=
  if arg.extractLsb' 32 32 = 0 then .ok (.fmtflt (arg.extractLsb' 0 32))
  else .error .illegalArg

/-- The fields of a time record in their places (R76). -/
def TimeRecord.unpack (v : BitVec 64) : TimeRecord where
  sec := v.extractLsb' 0 8
  min := v.extractLsb' 8 8
  hour := v.extractLsb' 16 8
  day := v.extractLsb' 24 8
  month := v.extractLsb' 32 8
  year := v.extractLsb' 40 16
  tz := v.extractLsb' 56 1

/-- The 64-bit time record, bits [63:57] zero (R76, R148). -/
def TimeRecord.pack (r : TimeRecord) : BitVec 64 :=
  0#7 ++ r.tz ++ r.year ++ r.month ++ r.day ++ r.hour ++ r.min ++ r.sec

/-- Format T: the time record, arg[63:57] reserved (R71). -/
def formatT (arg : Arg) : Except Reject Instr :=
  if arg.extractLsb' 57 7 = 0 then .ok (.settime (TimeRecord.unpack arg))
  else .error .illegalArg

/-- The decode order of R79: the opcode first, then the reserved bits of its format. The ranges of the fields are the
last check; the meanings make it (log 10). -/
def decodeCommand (w : CmdWord) : Except Reject Instr :=
  match (opOf w).toNat with
  | 0 => formatZ (argOf w) .nop
  | 1 => formatCW (argOf w)
  | 2 => formatCR (argOf w)
  | 3 => formatI (argOf w)
  | 4 => formatF (argOf w)
  | 5 => formatT (argOf w)
  | 6 => formatZ (argOf w) .rdtime
  | 7 => formatZ (argOf w) .rdlocal
  | 8 => formatZ (argOf w) .muxon
  | 9 => formatZ (argOf w) .muxoff
  | _ => .error .illegalOp

/-- The events of an event word, in the order the block steps them (R77, R235). -/
def decodeEvents (e : EvtWord) : List Instr :=
  (if e.getLsbD 0 then [.tick1hz] else []) ++ (if e.getLsbD 1 then [.tickmux] else [])

/-- What remains of an event word once its first event has been taken: two events of one cycle are two steps (R77). -/
def afterFirstEvent (e : EvtWord) : EvtWord :=
  if e.getLsbD 0 then e &&& 2#2 else 0#2

/-- Every instruction a port word stands for: one for a command, up to two for an event word. -/
def decode : PortWord → Except Reject (List Instr)
  | .cmd w => (decodeCommand w).map fun i => [i]
  | .evt e => .ok (decodeEvents e)

/-- The command word of an opcode and an argument, `{op, arg}` (R70). -/
def cmdWord (op : BitVec 4) (arg : Arg) : PortWord :=
  .cmd (op ++ arg)

/-- The word of an instruction (R71, R72, R76, R77). -/
def encode : Instr → PortWord
  | .nop => cmdWord 0x0 0
  | .wrcell idx data => cmdWord 0x1 (0#53 ++ idx ++ data)
  | .rdcell idx => cmdWord 0x2 (0#53 ++ idx ++ 0#8)
  | .fmtint ival => cmdWord 0x3 ival
  | .fmtflt fval => cmdWord 0x4 (0#32 ++ fval)
  | .settime r => cmdWord 0x5 r.pack
  | .rdtime => cmdWord 0x6 0
  | .rdlocal => cmdWord 0x7 0
  | .muxon => cmdWord 0x8 0
  | .muxoff => cmdWord 0x9 0
  | .tick1hz => .evt 0b01
  | .tickmux => .evt 0b10

/-- The instruction of an opcode-table word: a row of `evt[1:0]` takes one byte, a row of `cmd[67:0]` nine. An event word
with both bits set gives the event that is stepped first (log 11). -/
def decodeTableWord (nbits w : Nat) : Option Instr :=
  if nbits ≤ 8 then
    if w < 4 then (decodeEvents (BitVec.ofNat 2 w)).head? else none
  else if w < 2 ^ 68 then
    match decodeCommand (BitVec.ofNat 68 w) with
    | .ok i => some i
    | .error _ => none
  else none

end Sys2Proof
end

