-- ==== Sys2Proof/Machine/Clock.lean ====
section
/-! DEFINITION. The real-time clock engine (42_rtc.md R144 to R151) and the timezone correction (43_timezone.md R170 to
R172): TICK1HZ, SETTIME, RDTIME, RDLOCAL. Every sum is compared with its bound as an integer before it is stored (log 9). -/

namespace Sys2Proof.Machine

/-- YEAR <- (YEAR + 1) mod 65536 (R144, R151). A run that wraps YEAR is outside what the document behind the spec describes
(R151, U3); the model carries on as the rule says (log 24). -/
def nextYear (w : WallClock) : WallClock :=
  { w with year := BitVec.ofNat 16 ((w.year.toNat + 1) % Config.yearModulus) }

/-- MONTH <- MONTH + 1, carrying into the year (R144). -/
def nextMonth (w : WallClock) : WallClock :=
  if w.month.toNat + 1 > 12 then nextYear { w with month := 1 }
  else { w with month := BitVec.ofNat 4 (w.month.toNat + 1) }

/-- DAY <- DAY + 1, carrying by DIM of the month being left (R144); the calendar rule LOCAL uses too (R170). -/
def nextDay (w : WallClock) : WallClock :=
  if w.day.toNat + 1 > dim w.year.toNat w.month.toNat then nextMonth { w with day := 1 }
  else { w with day := BitVec.ofNat 5 (w.day.toNat + 1) }

/-- HOUR <- HOUR + 1, carrying into the day (R144). -/
def nextHour (w : WallClock) : WallClock :=
  if w.hour.toNat + 1 ≥ 24 then nextDay { w with hour := 0 }
  else { w with hour := BitVec.ofNat 5 (w.hour.toNat + 1) }

/-- MIN <- MIN + 1, carrying into the hour (R144). -/
def nextMin (w : WallClock) : WallClock :=
  if w.min.toNat + 1 ≥ 60 then nextHour { w with min := 0 }
  else { w with min := BitVec.ofNat 6 (w.min.toNat + 1) }

/-- The cascade of TICK1HZ: SEC <- SEC + 1, carrying into the minutes (R144). -/
def cascade (w : WallClock) : WallClock :=
  if w.sec.toNat + 1 ≥ 60 then nextMin { w with sec := 0 }
  else { w with sec := BitVec.ofNat 6 (w.sec.toNat + 1) }

/-- The condition of R145: the time is exactly DST_INSTANT on a Sunday. -/
def atDstInstant (w : WallClock) : Bool :=
  decide (w.hour.toNat = Config.dstHour) && decide (w.min.toNat = Config.dstMin) &&
    decide (w.sec.toNat = Config.dstSec) && decide (dow w.year.toNat w.month.toNat w.day.toNat = 0)

/-- `DstEvaluate()` on the cascaded values: the new TZ, written as a level (R145, R146). -/
def dstEvaluate (w : WallClock) (tz : BitVec 1) : BitVec 1 :=
  if atDstInstant w then
    let l := lastSun w.year.toNat w.month.toNat
    if w.month.toNat = Config.springMonth ∧ w.day.toNat ≥ l then 1
    else if w.month.toNat = Config.autumnMonth ∧ w.day.toNat ≥ l then 0
    else tz
  else tz

/-- WallClock and a TZ bit as a time record, each register zero-extended to its byte (R76, R148). -/
def recordOf (w : WallClock) (tz : BitVec 1) : TimeRecord where
  sec := w.sec.setWidth 8
  min := w.min.setWidth 8
  hour := w.hour.setWidth 8
  day := w.day.setWidth 8
  month := w.month.setWidth 8
  year := w.year
  tz := tz

/-- The registers a valid time record is written to (R147). -/
def wallOf (r : TimeRecord) : WallClock where
  sec := r.sec.setWidth 6
  min := r.min.setWidth 6
  hour := r.hour.setWidth 5
  day := r.day.setWidth 5
  month := r.month.setWidth 4
  year := r.year

/-- LOCAL: LocalClock, with the unshifted minutes and seconds beside it (R170, R171). -/
def localClock (w : WallClock) (tz : BitVec 1) : WallClock :=
  let lh := w.hour.toNat + tz.toNat
  if lh ≥ 24 then nextDay { w with hour := BitVec.ofNat 5 (lh - 24) }
  else { w with hour := BitVec.ofNat 5 lh }

/-- TICK1HZ: the cascade, then the DST evaluation on the new values, one atomic step (R144 to R146, R60). No response. -/
def execTick1hz (s : State) : Host.Outcome State Fault Refusal :=
  .next { s with wall := cascade s.wall, tz := dstEvaluate (cascade s.wall) s.tz }

/-- SETTIME: all seven registers change together, or the record is refused (R147). -/
def execSettime (r : TimeRecord) (s : State) : Host.Outcome State Fault Refusal :=
  if settable r then .next (respond 0 { s with wall := wallOf r, tz := r.tz })
  else .next (raise .illegalArg s)

/-- RDTIME: WallClock and TZ from one instant (R148). -/
def execRdtime (s : State) : Host.Outcome State Fault Refusal :=
  .next (respond (recordOf s.wall s.tz).pack s)

/-- RDLOCAL: LocalClock recomputed from the registers as they are now (R171, R172). -/
def execRdlocal (s : State) : Host.Outcome State Fault Refusal :=
  .next (respond (recordOf (localClock s.wall s.tz) s.tz).pack s)

end Sys2Proof.Machine
end

