-- ==== Sys2Proof/Machine/Mux.lean ====
section
/-! DEFINITION. The display multiplexer (41_display_mux.md R120 to R125): TICKMUX, MUXON, MUXOFF. -/

namespace Sys2Proof.Machine

/-- Action 1 of TICKMUX: deactivate the active cell (R120). -/
def muxDeactivate (s : State) : State := { s with colOut := 0b000000 }

/-- Action 2: CURSOR <- (CURSOR + 1) mod 6 (R120). -/
def muxAdvance (s : State) : State := { s with cursor := BitVec.ofNat 3 ((s.cursor.toNat + 1) % Config.nCells) }

/-- The cell CURSOR names. CURSOR is 0 to 5 in every reachable state and after every advance (R25); the remainder only
keeps the read inside the six cells (log 21). -/
def cursorCell (s : State) : CellIdx := ⟨s.cursor.toNat % 6, Nat.mod_lt _ (by decide)⟩

/-- Action 3: drive the segment lines from the cell CURSOR names (R120). -/
def muxDrive (s : State) : State := { s with segOut := s.sb.read (cursorCell s) }

/-- The one-hot column select of a cell (R27). -/
def oneHot (c : BitVec 3) : BitVec 6 := 1#6 <<< c.toNat

/-- Action 4: activate the new cell (R120). -/
def muxActivate (s : State) : State := { s with colOut := oneHot s.cursor }

/-- The four actions of TICKMUX in order (R120). -/
def muxActions : List (State → State) := [muxDeactivate, muxAdvance, muxDrive, muxActivate]

/-- The values of `seg` and `col` (R27, R78). -/
def muxPins (s : State) : Byte × BitVec 6 := (s.segOut, s.colOut)

/-- Every state a list of actions passes through, the first included. -/
def passThrough : List (State → State) → State → List State
  | [], s => [s]
  | f :: fs, s => s :: passThrough fs (f s)

/-- The pins inside one TICKMUX step: before it and after each of its actions (R121, log 16). -/
def tickmuxTrace (s : State) : List (Byte × BitVec 6) :=
  if s.muxOn then (passThrough muxActions s).map muxPins else [muxPins s]

/-- TICKMUX: the four actions as one atomic step while the multiplexer runs, nothing while it is suspended (R120, R122). -/
def execTickmux (s : State) : Host.Outcome State Fault Refusal :=
  if s.muxOn then .next (muxActivate (muxDrive (muxAdvance (muxDeactivate s)))) else .next s

/-- MUXON: MUX_ON <- 1 and nothing else (R123). -/
def execMuxon (s : State) : Host.Outcome State Fault Refusal :=
  .next (respond 0 { s with muxOn := true })

/-- MUXOFF: MUX_ON <- 0 and the pins dark; CURSOR and SB are kept (R124). -/
def execMuxoff (s : State) : Host.Outcome State Fault Refusal :=
  .next (respond 0 { s with muxOn := false, colOut := 0b000000, segOut := 0x00 })

end Sys2Proof.Machine
end

