-- ==== Sys2Proof/Machine/Dispatch.lean ====
section
/-! DEFINITION. One arm per constructor of Instr, each a direct call of its meaning. -/

namespace Sys2Proof.Machine

def exec (i : Instr) (s : State) : Host.Outcome State Fault Refusal :=
  match i with
  | .nop => Sys2Proof.Machine.execNop s
  | .wrcell idx data => Sys2Proof.Machine.execWrcell idx data s
  | .rdcell idx => Sys2Proof.Machine.execRdcell idx s
  | .fmtint ival => Sys2Proof.Machine.execFmtint ival s
  | .fmtflt fval => Sys2Proof.Machine.execFmtflt fval s
  | .settime record => Sys2Proof.Machine.execSettime record s
  | .rdtime => Sys2Proof.Machine.execRdtime s
  | .rdlocal => Sys2Proof.Machine.execRdlocal s
  | .muxon => Sys2Proof.Machine.execMuxon s
  | .muxoff => Sys2Proof.Machine.execMuxoff s
  | .tick1hz => Sys2Proof.Machine.execTick1hz s
  | .tickmux => Sys2Proof.Machine.execTickmux s

end Sys2Proof.Machine
end

