-- ==== Sys2Proof/Machine/Turns.lean ====
section
/-! DEFINITION. What each kind of slot does: a turn of the command agent, an event word, a level of rst_n
(20_memory.md R58; 60_exceptions.md R234, R235; 70_reset_and_hazards.md R260, R261, R267). -/

namespace Sys2Proof.Machine

/-- `cmd_ready`: low while a command is in progress and while reset is asserted (R78, R261). -/
def cmdReady (s : State) : Bool := s.rstN && s.flight.isNone

/-- The command step: decode the word, then refuse it or execute it (R79, R230). -/
def commandStep (w : CmdWord) (s : State) : Host.Outcome State Fault Refusal :=
  match decodeCommand w with
  | .ok i => exec i s
  | .error r => .next (raise r s)

/-- A turn of the command agent. A format command in progress writes its next cell, and the host's next word waits for
`cmd_ready`; otherwise that word is taken and executed; with neither, nothing happens (R188, R267). -/
def commandTurn (s : State) : Host.Outcome State Fault Refusal :=
  match s.flight with
  | some f => .next (writeNextCell f s)
  | none =>
    match s.cmds with
    | [] => .next s
    | w :: ws => commandStep w { s with cmds := ws }

/-- An event word: its first event is one step; a second event of the same cycle is the step after it (R77, R235). -/
def eventTurn (e : EvtWord) (s : State) : Host.Outcome State Fault Refusal :=
  match decodeEvents e with
  | [] => .next s
  | [i] => exec i s
  | i :: _ => exec i { s with schedule := .events (afterFirstEvent e) :: s.schedule }

/-- While `rst_n` is low every register holds its reset value, nothing is in flight and nothing is answered; the words the
host has not yet had accepted, and what moves next, stay the environment's (R260, R261; log 5). -/
def holdReset (s : State) : State :=
  { State.reset with cmds := s.cmds, schedule := s.schedule, rstN := false }

/-- The host drives `rst_n`. In the first cycle after it goes high every register still holds its reset value (R260). -/
def resetTurn (level : Bool) (s : State) : State :=
  if level then (if s.rstN then s else { holdReset s with rstN := true }) else holdReset s

/-- One slot. Under reset, ticks are ignored without being remembered and no command is accepted (R261). -/
def runSlot (slot : Slot) (s : State) : Host.Outcome State Fault Refusal :=
  match slot with
  | .rst level => .next (resetTurn level s)
  | .command => if s.rstN then commandTurn s else .next (holdReset s)
  | .events e => if s.rstN then eventTurn e s else .next (holdReset s)

/-- The slot taken when the schedule names none: the command agent's, so that an accepted command always completes (R275;
log 2). -/
def idleSlot : Slot := .command

/-- The state in which a slot runs: the slot is taken off the schedule, and a response lasts one step (R78; log 3). -/
def afterSlot (rest : List Slot) (s : State) : State :=
  { s with schedule := rest, rsp := none }

/-- The block's own order of what falls in one clock cycle: TICK1HZ, then TICKMUX, then the command step (R235). A claim must
not rely on it: a schedule may hold any order (R58). -/
def cycleSlots (e : EvtWord) : List Slot := [.events e, .command]

end Sys2Proof.Machine
end

