-- ==== Sys2Proof/Machine/Step.lean ====
section
/-! DEFINITION. One atomic step of whichever agent moves next (00_scope.md R9; 20_memory.md R58). -/

namespace Sys2Proof.Machine

/-- One step. -/
def step (s : State) : Host.Outcome State Fault Refusal :=
  match s.schedule with
  | [] => runSlot idleSlot (afterSlot [] s)
  | slot :: rest => runSlot slot (afterSlot rest s)

/-- The state in which the next step takes the given opcode-table word: a word of at most eight bits arrives on the tick
inputs, a longer one is offered on the command port, which is ready, and the command agent has the turn (log 6). -/
def State.withFetchWord (s : State) (nbits w : Nat) : State :=
  if nbits ≤ 8 then { s with rstN := true, schedule := .events (BitVec.ofNat 2 w) :: s.schedule }
  else
    { s with rstN := true, flight := none, cmds := BitVec.ofNat 68 w :: s.cmds, schedule := .command :: s.schedule }

end Sys2Proof.Machine
end

