-- ==== Sys2Proof/Machine/Assembler.lean ====
section
/-! DEFINITION. The text forms of 30_encoding.md R80: what each line of a program stands for, with the pseudo-instructions
CLRBUF and WRMSG, and the reader that takes a program's characters to its words (log 17). -/

namespace Sys2Proof.Machine

/-- `CLRBUF`: six commands, ascending (R80). -/
def clrbuf : List Instr :=
  [.wrcell 0 0, .wrcell 1 0, .wrcell 2 0, .wrcell 3 0, .wrcell 4 0, .wrcell 5 0]

/-- The six WRCELL commands that draw a frame, ascending (R80). -/
def drawFrame (c : Frame) : List Instr :=
  [.wrcell 0 c.c0, .wrcell 1 c.c1, .wrcell 2 c.c2, .wrcell 3 c.c3, .wrcell 4 c.c4, .wrcell 5 c.c5]

/-- `WRMSG "text"` (R80, R103). -/
def wrmsg (text : String) : Option (List Instr) := (msg text).map drawFrame

/-- `num / den` rounded to an integer, ties to even. -/
def roundHalfEven (num den : Nat) : Nat :=
  let q := num / den
  let r := num % den
  if 2 * r < den then q else if 2 * r > den then q + 1 else q + q % 2

/-- The greatest biased exponent from `ex` down whose normal range the magnitude reaches, and 1 below them all: the exponent
that fixes the spacing of binary32 values around the magnitude (R200). -/
def spacingExp (v : Frac) : Nat → Nat
  | 0 => 1
  | ex + 1 => if v.den * 2 ^ (ex + 1) * 2 ^ 23 ≤ v.num * 2 ^ 150 then ex + 1 else spacingExp v ex

/-- The binary32 nearest to a decimal literal, ties to even (R80). A literal beyond the largest finite value gives infinity
(log 20). -/
def nearestBinary32 (neg : Bool) (v : Frac) : BitVec 32 :=
  let ex := spacingExp v 254
  let m := roundHalfEven (v.num * 2 ^ 150) (v.den * 2 ^ ex)
  let bits := min (if m < 2 ^ 23 then m else (ex - 1) * 2 ^ 23 + m) (255 * 2 ^ 23)
  BitVec.ofNat 32 ((if neg then 2 ^ 31 else 0) + bits)

/-- One line of a program (R80). -/
inductive AsmLine where
  /-- A command or event by its mnemonic and operands. -/
  | instr (i : Instr)
  /-- `FMTFLT` with a decimal literal: sign, and magnitude as an exact fraction. -/
  | fmtfltDecimal (neg : Bool) (v : Frac)
  /-- `.word 0xH...`: any 68-bit word. -/
  | word (w : CmdWord)
  /-- `TICK1HZ n`. -/
  | tick1hzTimes (n : Nat)
  /-- `TICKMUX n`. -/
  | tickmuxTimes (n : Nat)
  /-- `CLRBUF`. -/
  | clrbuf
  /-- `WRMSG "text"`. -/
  | wrmsg (text : String)
deriving DecidableEq, Repr

/-- The words a line stands for; none for a message that cannot be drawn (R80). -/
def AsmLine.words : AsmLine → Option (List PortWord)
  | .instr i => some [encode i]
  | .fmtfltDecimal neg v => some [encode (.fmtflt (nearestBinary32 neg v))]
  | .word w => some [.cmd w]
  | .tick1hzTimes n => some (List.replicate n (encode .tick1hz))
  | .tickmuxTimes n => some (List.replicate n (encode .tickmux))
  | .clrbuf => some (Machine.clrbuf.map encode)
  | .wrmsg text => (Machine.wrmsg text).map fun l => l.map encode

/-! ### Reading a program's text -/

/-- The value of a digit in a base up to sixteen; letters of either case. -/
def digitValue (c : Char) : Option Nat :=
  let n := c.toNat
  if 48 ≤ n ∧ n ≤ 57 then some (n - 48)
  else if 65 ≤ n ∧ n ≤ 70 then some (n - 55)
  else if 97 ≤ n ∧ n ≤ 102 then some (n - 87)
  else none

/-- The digits of a number in a base, most significant first, after those read so far. -/
def readDigits (base : Nat) : Nat → List Char → Option Nat
  | acc, [] => some acc
  | acc, c :: cs =>
    match digitValue c with
    | some d => if d < base then readDigits base (acc * base + d) cs else none
    | none => none

/-- A natural number: decimal, or hexadecimal after `0x`; at least one digit (R80). -/
def readNat : List Char → Option Nat
  | [] => none
  | ['0', 'x'] => none
  | '0' :: 'x' :: cs => readDigits 16 0 cs
  | cs => readDigits 10 0 cs

/-- An integer: a number with an optional minus sign. -/
def readInt : List Char → Option Int
  | '-' :: cs => (readNat cs).map fun n => -(n : Int)
  | cs => (readNat cs).map fun n => (n : Int)

/-- A hexadecimal word of exactly `k` digits after `0x` (R80: 17 for `.word`, 8 for `FMTFLT`). -/
def readHexWord (k : Nat) : List Char → Option Nat
  | '0' :: 'x' :: cs => if cs.length = k then readDigits 16 0 cs else none
  | _ => none

/-- The pieces of a text between the characters that separate, empty pieces included. -/
def splitAt (sep : Char → Bool) : List Char → List (List Char)
  | [] => [[]]
  | c :: cs =>
    match splitAt sep cs with
    | [] => [[c]]
    | p :: ps => if sep c then [] :: p :: ps else (c :: p) :: ps

/-- The pieces of a text between separators, empty pieces dropped. -/
def tokens (sep : Char → Bool) (cs : List Char) : List (List Char) :=
  (splitAt sep cs).filter fun p => !p.isEmpty

/-- Spaces, tabs and the comma between operands separate. -/
def isGap (c : Char) : Bool := c = ' ' ∨ c = '\t' ∨ c = '\r' ∨ c = ','

/-- A value that fits a field of `w` bits. -/
def readField (w : Nat) (cs : List Char) : Option (BitVec w) :=
  match readDigits 10 0 cs with
  | some n => if cs ≠ [] ∧ n < 2 ^ w then some (BitVec.ofNat w n) else none
  | none => none

/-- `yyyy-mm-dd hh:mm:ss tz`; a value out of its range that still fits its field is a word too, which the block refuses
(R76, R80). -/
def readTime (date time tz : List Char) : Option TimeRecord :=
  match splitAt (· = '-') date, splitAt (· = ':') time with
  | [y, mo, d], [h, mi, s] => do
    some ⟨← readField 8 s, ← readField 8 mi, ← readField 8 h, ← readField 8 d, ← readField 8 mo, ← readField 16 y,
      ← readField 1 tz⟩
  | _, _ => none

/-- A fraction times a power of ten. -/
def scaleTen (v : Frac) (e : Int) : Frac := v.divPow10 (-e)

/-- The magnitude of a decimal literal: digits, an optional fraction and an optional power of ten (R80). -/
def readDecimal (cs : List Char) : Option Frac :=
  let (body, power) :=
    match splitAt (fun c => c = 'e' ∨ c = 'E') cs with
    | [b] => (b, some 0)
    | [b, p] => (b, readInt p)
    | _ => ([], none)
  match splitAt (· = '.') body, power with
  | [w], some e => if w = [] then none else (readDigits 10 0 w).map fun n => scaleTen ⟨n, 1⟩ e
  | [w, f], some e =>
    if w = [] ∨ f = [] then none else (readDigits 10 0 (w ++ f)).map fun n => scaleTen ⟨n, 10 ^ f.length⟩ e
  | _, _ => none

/-- The operand of `FMTFLT`: a pattern of eight hexadecimal digits, or a decimal literal (R80). -/
def readFloat (cs : List Char) : Option AsmLine :=
  match readHexWord 8 cs with
  | some n => some (.instr (.fmtflt (BitVec.ofNat 32 n)))
  | none =>
    match cs with
    | '-' :: ds => (readDecimal ds).map (.fmtfltDecimal true)
    | ds => (readDecimal ds).map (.fmtfltDecimal false)

/-- A command or event with its operands (R80). -/
def readTokens (mnemonic : String) (operands : List (List Char)) : Option AsmLine :=
  match mnemonic, operands with
  | "NOP", [] => some (.instr .nop)
  | "RDTIME", [] => some (.instr .rdtime)
  | "RDLOCAL", [] => some (.instr .rdlocal)
  | "MUXON", [] => some (.instr .muxon)
  | "MUXOFF", [] => some (.instr .muxoff)
  | "CLRBUF", [] => some .clrbuf
  | "TICK1HZ", [] => some (.instr .tick1hz)
  | "TICKMUX", [] => some (.instr .tickmux)
  | "TICK1HZ", [n] => (readNat n).map .tick1hzTimes
  | "TICKMUX", [n] => (readNat n).map .tickmuxTimes
  | "WRCELL", [i, d] =>
    match readNat i, readNat d with
    | some i, some d => if i < 8 ∧ d < 256 then some (.instr (.wrcell (BitVec.ofNat 3 i) (BitVec.ofNat 8 d))) else none
    | _, _ => none
  | "RDCELL", [i] =>
    match readNat i with
    | some i => if i < 8 then some (.instr (.rdcell (BitVec.ofNat 3 i))) else none
    | none => none
  | "FMTINT", [n] =>
    match readInt n with
    | some n => if -(2 ^ 63) ≤ n ∧ n < 2 ^ 63 then some (.instr (.fmtint (BitVec.ofInt 64 n))) else none
    | none => none
  | "FMTFLT", [v] => readFloat v
  | "SETTIME", [d, t, z] => (readTime d t z).map fun r => .instr (.settime r)
  | ".word", [w] => (readHexWord 17 w).map fun n => .word (BitVec.ofNat 68 n)
  | _, _ => none

/-- One line: a comment starts at `;`, a line with nothing on it stands for nothing, and the message of `WRMSG` stands between
double quotes (R80). -/
def readLine (cs : List Char) : Option (List AsmLine) :=
  match splitAt (· = '"') (cs.takeWhile (· ≠ ';')) with
  | [body] =>
    match tokens isGap body with
    | [] => some []
    | m :: operands => (readTokens (String.ofList m) operands).map fun l => [l]
  | [body, text, rest] =>
    if tokens isGap body = ["WRMSG".toList] ∧ tokens isGap rest = [] then some [.wrmsg (String.ofList text)] else none
  | _ => none

/-- The words of a program's text, line by line; none where a line is none of the forms of R80. -/
def assemble (text : String) : Option (List PortWord) :=
  (splitAt (· = '\n') text.toList).foldr
    (fun line rest => do
      let lines ← readLine line
      let words ← lines.mapM AsmLine.words
      return words.flatten ++ (← rest))
    (some [])

end Sys2Proof.Machine
end

