-- ==== Sys2Proof/Machine/Flags.lean ====
section
/-! DEFINITION. The block has no condition flags (10_state.md R30). Its only per-command condition is the 2-bit status of
the response (30_encoding.md R75), whose codes are here. -/

namespace Sys2Proof.Machine

/-- The code of a status on `rsp_status[1:0]` (R75). -/
def Status.code : Status → BitVec 2
  | .ok => 0
  | .illegalOp => 1
  | .illegalArg => 2

end Sys2Proof.Machine
end

