-- ==== Sys2Proof/Machine/Ports.lean ====
section
/-! DEFINITION. The block's output ports as views of State (30_encoding.md R78): `cmd_ready` is in Machine/Turns.lean. The
timing facts that R126 derives from the open refresh rate are here too. -/

namespace Sys2Proof.Machine

/-- `rsp_valid`: the step just taken finished a command (R75, R78). -/
def rspValid (s : State) : Bool := s.rsp.isSome

/-- `rsp_status[1:0]`, while `rsp_valid` (R75). -/
def rspStatus (s : State) : Option (BitVec 2) := s.rsp.map fun r => Status.code r.status

/-- `rsp_data[63:0]`, while `rsp_valid` (R75). -/
def rspData (s : State) : Option (BitVec 64) := s.rsp.map fun r => r.data

/-- The electrical level of a logical line word under an active level (R5, R27, D11). -/
def activeLevel {w : Nat} (high : Bool) (lines : BitVec w) : BitVec w := if high then lines else ~~~lines

/-- `seg[7:0]` (R27, R78). -/
def segPins (s : State) : Byte := activeLevel Config.segActiveHigh s.segOut

/-- `col[5:0]` (R27, R78). -/
def colPins (s : State) : BitVec 6 := activeLevel Config.colActiveHigh s.colOut

/-- How many frames a steady refresh rate shows in a second: F_MUX_HZ / 6, exactly, for any rate (R126). -/
def framesPerSecond (hz : ℚ) : ℚ := hz / Config.nCells

end Sys2Proof.Machine
end

