-- ==== Sys2Proof/WellFormed.lean ====
section
/-! DEFINITION. Which instructions have every field in range (30_encoding.md R74, R76; 20_memory.md R54). An instruction
that has not is still decoded and executed: it is refused with IllegalArg (R79). -/

namespace Sys2Proof

/-- Every field of the instruction is in the range its rule accepts. -/
def Instr.wf : Instr → Bool
  | .nop => true
  | .wrcell idx _ => decide (idx.toNat ≤ 5)
  | .rdcell idx => decide (idx.toNat ≤ 5)
  | .fmtint _ => true
  | .fmtflt _ => true
  | .settime r => Machine.settable r
  | .rdtime => true
  | .rdlocal => true
  | .muxon => true
  | .muxoff => true
  | .tick1hz => true
  | .tickmux => true

end Sys2Proof
end

