-- ==== Sys2Proof/Safety.lean ====
section
/-! DEFINITION. What claims about the block are stated in: the invariants of the spec's prose, sequences of instructions,
what a state shows of the registers of R20, and the exact rational meaning of a float operand. -/

namespace Sys2Proof.Machine

/-- VALIDTIME of the registers (R22, R149); YEAR may be 0. -/
def ClockValid (s : State) : Prop :=
  validTime s.wall.sec.toNat s.wall.min.toNat s.wall.hour.toNat s.wall.day.toNat s.wall.month.toNat
    s.wall.year.toNat = true

/-- R125 (a), (b), (c): CURSOR is 0 to 5, COL_OUT is 0 or the one-hot of CURSOR, and a suspended display is dark. -/
def MuxValid (s : State) : Prop :=
  s.cursor.toNat < 6 ∧ (s.colOut = 0 ∨ s.colOut = oneHot s.cursor) ∧
    (s.muxOn = false → s.colOut = 0 ∧ s.segOut = 0x00)

/-- The invariant of every step boundary: the clock shows a valid date (R22), the multiplexer is as R125 says, and the
SegmentBuffer's cells are in their one canonical form (log 13). -/
def BoundaryInv (s : State) : Prop :=
  ClockValid s ∧ MuxValid s ∧ s.sb.wf = true

/-- The registers of R20 in a state, with the ports and the in-flight work left out. -/
structure Registers where
  wall : WallClock
  tz : BitVec 1
  sb : Memory
  cursor : BitVec 3
  muxOn : Bool
  segOut : Byte
  colOut : BitVec 6
deriving DecidableEq, Repr

def State.registers (s : State) : Registers :=
  ⟨s.wall, s.tz, s.sb, s.cursor, s.muxOn, s.segOut, s.colOut⟩

/-- Instructions one after the other, stopping where one stops. -/
def execAll : List Instr → State → Host.Outcome State Fault Refusal
  | [], s => .next s
  | i :: is, s =>
    match exec i s with
    | .next t => execAll is t
    | .fault r => .fault r
    | .refused r => .refused r

/-- `k` steps of the block. -/
def runSteps : Nat → State → Host.Outcome State Fault Refusal
  | 0, s => .next s
  | k + 1, s =>
    match step s with
    | .next t => runSteps k t
    | .fault r => .fault r
    | .refused r => .refused r

/-- The frame the SegmentBuffer holds. -/
def Memory.frame (m : Memory) : Frame :=
  ⟨m.read 0, m.read 1, m.read 2, m.read 3, m.read 4, m.read 5⟩

/-- The number of events an event word holds, hence of steps it takes; a word without an event takes one step, in which
nothing happens. -/
def eventSteps (e : EvtWord) : Nat := max 1 (decodeEvents e).length

/-- Event words of the two tick inputs falling before each of several turns of the command agent, one list of event words
before each turn (R58, R188). -/
def interleaved (gaps : List (List EvtWord)) : List Slot :=
  gaps.flatMap fun es => es.map Slot.events ++ [Slot.command]

/-- How many steps such a schedule takes. -/
def interleavedSteps (gaps : List (List EvtWord)) : Nat :=
  (gaps.map fun es => (es.map eventSteps).sum + 1).sum

/-- How many `tick_1hz` pulses such a schedule holds. -/
def secondsIn (gaps : List (List EvtWord)) : Nat :=
  (gaps.map fun es => (es.map fun e => (decodeEvents e).count .tick1hz).sum).sum

/-- How many `tick_mux` pulses such a schedule holds. -/
def refreshesIn (gaps : List (List EvtWord)) : Nat :=
  (gaps.map fun es => (es.map fun e => (decodeEvents e).count .tickmux).sum).sum

/-- The command port takes the host's next word: reset is not asserted and no command is in progress (R78, R267). -/
def Ready (s : State) : Prop := s.rstN = true ∧ s.flight = none

/-- The bits of `arg` that must be zero, per opcode: the column must_be_zero of spec/opcode_table.json (R71, R74). -/
def mustBeZero : Nat → BitVec 64
  | 1 => 0xFFFFFFFFFFFFF800
  | 2 => 0xFFFFFFFFFFFFF8FF
  | 3 => 0x0000000000000000
  | 4 => 0xFFFFFFFF00000000
  | 5 => 0xFE00000000000000
  | _ => 0xFFFFFFFFFFFFFFFF

/-- The fields of a command word that have a range are in it: the cell index of WRCELL and RDCELL (R54), the time record of
SETTIME (R76, R147). Read from the word, not through the decoder. -/
def FieldsInRange (w : CmdWord) : Prop :=
  ((opOf w).toNat = 1 ∨ (opOf w).toNat = 2 → (w.extractLsb' 8 3).toNat ≤ 5) ∧
    ((opOf w).toNat = 5 →
      (w.extractLsb' 40 16).toNat ≠ 0 ∧
        validTime (w.extractLsb' 0 8).toNat (w.extractLsb' 8 8).toNat (w.extractLsb' 16 8).toNat
          (w.extractLsb' 24 8).toNat (w.extractLsb' 32 8).toNat (w.extractLsb' 40 16).toNat = true)

/-- The magnitude V of a finite binary32 pattern as an exact rational, by the formulas of R200. -/
def floatValue (v : BitVec 32) : ℚ :=
  if fltExp v = 0 then (fltFrac v : ℚ) * (2 : ℚ) ^ (-149 : ℤ)
  else ((2 : ℚ) ^ 23 + (fltFrac v : ℚ)) * (2 : ℚ) ^ ((fltExp v : ℤ) - 150)

/-- A fraction as a rational number. -/
def Frac.toRat (w : Frac) : ℚ := (w.num : ℚ) / (w.den : ℚ)

end Sys2Proof.Machine
end

