-- ==== Sys2Proof/Certificates/Slice0/Obligations.lean ====
section
/-! DEFINITION. The statements for the provers, from the numbered rules of spec/. -/

open Sys2Proof Sys2Proof.Machine

/-! ## Encoding (30_encoding.md) -/

/-- Decoding the word of an instruction gives that instruction, with every operand at every value its field can hold,
in range or not (R70, R71, R72, R76, R77). -/
def Obligations.DecodeOfEncodeIsTheInstruction : Prop :=
  ∀ i : Instr, decode (encode i) = .ok [i]

/-- A command word that decodes is the word of the instruction it decodes to: no two words mean the same instruction and
no bit of a word is dropped (R71, R74, R79). -/
def Obligations.EncodeOfDecodeIsTheWord : Prop :=
  ∀ (w : CmdWord) (i : Instr), decodeCommand w = .ok i → encode i = .cmd w

/-- Words written out in the spec decode to the instructions it says they are (R76, R77, R105, R124, R147, R186, R212). -/
def Obligations.WordsOfTheSpecDecodeAsWritten : Prop :=
  decodeCommand 0x1000000000000035B = .ok (.wrcell 3 0x5B) ∧
  decodeCommand 0x3FFFFFFFFFFFFCFC7 = .ok (.fmtint (BitVec.ofInt 64 (-12345))) ∧
  decodeCommand 0x40000000042F6E666 = .ok (.fmtflt 0x42F6E666) ∧
  decodeCommand 0x50007E8031F003B3A = .ok (.settime ⟨58, 59, 0, 31, 3, 2024, 0⟩) ∧
  decodeCommand 0x90000000000000000 = .ok .muxoff ∧
  decodeEvents 0b00 = [] ∧ decodeEvents 0b01 = [.tick1hz] ∧ decodeEvents 0b10 = [.tickmux] ∧
  decodeEvents 0b11 = [.tick1hz, .tickmux]

/-- R73: a command word with a reserved opcode changes no state and responds IllegalOp with data 0, whatever its argument;
and no opcode executes as another. -/
def Obligations.ReservedOpcodesAnswerIllegalOp : Prop :=
  (∀ (s : State) (w : CmdWord) (ws : List CmdWord) (rest : List Slot),
    Ready s → s.schedule = .command :: rest → s.cmds = w :: ws → 10 ≤ (opOf w).toNat →
      step s = .next { s with cmds := ws, schedule := rest, rsp := some ⟨.illegalOp, 0⟩ }) ∧
  ∀ (w : CmdWord) (i : Instr), decodeCommand w = .ok i → ∃ arg, encode i = cmdWord (opOf w) arg

/-- R79, with R74: the decode order, at every turn of the command agent that takes a word. A reserved opcode answers
IllegalOp; otherwise a reserved bit that is set or a field out of range answers IllegalArg and changes nothing; otherwise
the command executes and responds OK, with no response before that one: FMTINT and FMTFLT within the next seven turns of
the command agent, whatever ticks fall among them; every other command in its own step. Seven turns leave open whether
the response comes with the last cell write or after it (log 4). -/
def Obligations.CommandWordsFollowTheDecodeOrder : Prop :=
  ∀ (s : State) (w : CmdWord) (ws : List CmdWord) (rest : List Slot),
    Ready s → s.schedule = .command :: rest → s.cmds = w :: ws →
    ((opOf w).toNat ≥ 10 →
      step s = .next { s with cmds := ws, schedule := rest, rsp := some ⟨.illegalOp, 0⟩ }) ∧
    ((opOf w).toNat < 10 → (argOf w &&& mustBeZero (opOf w).toNat ≠ 0 ∨ ¬ FieldsInRange w) →
      step s = .next { s with cmds := ws, schedule := rest, rsp := some ⟨.illegalArg, 0⟩ }) ∧
    ((opOf w).toNat < 10 → argOf w &&& mustBeZero (opOf w).toNat = 0 → FieldsInRange w →
      (∃ i, decodeCommand w = .ok i ∧ i.wf = true ∧
        step s = exec i { s with cmds := ws, schedule := rest, rsp := none }) ∧
      ((opOf w).toNat ≠ 3 → (opOf w).toNat ≠ 4 → ∃ t d, step s = .next t ∧ t.rsp = some ⟨.ok, d⟩) ∧
      ∀ (gaps : List (List EvtWord)) (later : List Slot), rest = interleaved gaps ++ later → gaps.length = 7 →
        ∃ k t d, k ≤ 1 + interleavedSteps gaps ∧ runSteps k s = .next t ∧ t.rsp = some ⟨.ok, d⟩ ∧ t.cmds = ws ∧
          ∀ j u, 0 < j → j < k → runSteps j s = .next u → u.rsp = none)

/-- R275 with log 2 (the model's choice: a schedule that has run out gives the turn to the command agent): with an empty
schedule the step is a turn of the command agent, and a word that decodes to a well-formed instruction responds OK, and
before that not at all. -/
def Obligations.AcceptedCommandsRespondOnAnEmptySchedule : Prop :=
  (∀ s : State, s.schedule = [] → step s = step { s with schedule := [.command] }) ∧
  ∀ (s : State) (w : CmdWord) (ws : List CmdWord) (i : Instr),
    Ready s → s.schedule = [] → s.cmds = w :: ws → decodeCommand w = .ok i → i.wf = true →
      step s = exec i { s with cmds := ws, rsp := none } ∧
      ∃ k t d, runSteps k s = .next t ∧ t.rsp = some ⟨.ok, d⟩ ∧ t.cmds = ws ∧
        ∀ j u, 0 < j → j < k → runSteps j s = .next u → u.rsp = none

/-- R230: a command step that answers with a status other than OK changed no register and nothing in flight, and its data
is 0. -/
def Obligations.RefusedCommandsChangeNothing : Prop :=
  ∀ (s t : State) (rest : List Slot) (r : Response),
    s.rstN = true → s.schedule = .command :: rest → step s = .next t → t.rsp = some r → r.status ≠ .ok →
      t.registers = s.registers ∧ t.flight = s.flight ∧ r.data = 0

/-! ## The step (00_scope.md R9, 20_memory.md R58, 60_exceptions.md R234, R235) -/

/-- When the word at the command port decodes to an instruction, the command agent's turn is that instruction at the state
with the word taken; when the event word holds one event, its slot is that event; when it holds both, the slot is TICK1HZ
and leaves TICKMUX for the next step (R77, R235). A response lasts one step (log 3). -/
def Obligations.StepRunsTheDecodedInstruction : Prop :=
  (∀ (s : State) (w : CmdWord) (ws : List CmdWord) (rest : List Slot) (i : Instr),
    Ready s → s.schedule = .command :: rest → s.cmds = w :: ws → decodeCommand w = .ok i →
      step s = exec i { s with cmds := ws, schedule := rest, rsp := none }) ∧
  (∀ (s : State) (e : EvtWord) (rest : List Slot) (i : Instr),
    s.rstN = true → s.schedule = .events e :: rest → decodeEvents e = [i] →
      step s = exec i { s with schedule := rest, rsp := none }) ∧
  ∀ (s : State) (rest : List Slot),
    s.rstN = true → s.schedule = .events 0b11 :: rest →
      step s = exec .tick1hz { s with schedule := .events 0b10 :: rest, rsp := none }

/-- The machine never stops: every step of every state has a next state (R75, R230, R275; the treatments fault and stuck
are used nowhere, 93_implementation_defined.md). -/
def Obligations.EveryStepHasANextState : Prop :=
  ∀ s : State, ∃ t, step s = .next t

/-- The word placed where the next step takes it runs as exactly the instruction the decoder reads from it (log 6). -/
def Obligations.FetchedTableWordsRun : Prop :=
  ∀ (s : State) (nbits w : Nat) (i : Instr), decodeTableWord nbits w = some i →
    (nbits > 8 → step (s.withFetchWord nbits w) = exec i { s with rstN := true, flight := none, rsp := none }) ∧
    (nbits ≤ 8 → w < 3 → step (s.withFetchWord nbits w) = exec i { s with rstN := true, rsp := none })

/-- The column "written by" of R20, as a frame for every instruction: which instruction may change which register, and that
none touches the inputs still to come. SB changes in an instruction's own step only by WRCELL; FMTINT and FMTFLT change it
in the write-out that follows (R188). -/
def Obligations.OnlyTheListedInstructionsWriteARegister : Prop :=
  ∀ (i : Instr) (s t : State), exec i s = .next t →
    (t.wall ≠ s.wall → i = .tick1hz ∨ ∃ r, i = .settime r) ∧
    (t.tz ≠ s.tz → i = .tick1hz ∨ ∃ r, i = .settime r) ∧
    (t.sb ≠ s.sb → ∃ idx data, i = .wrcell idx data) ∧
    (t.cursor ≠ s.cursor → i = .tickmux) ∧
    (t.muxOn ≠ s.muxOn → i = .muxon ∨ i = .muxoff) ∧
    (t.segOut ≠ s.segOut → i = .tickmux ∨ i = .muxoff) ∧
    (t.colOut ≠ s.colOut → i = .tickmux ∨ i = .muxoff) ∧
    (t.flight ≠ s.flight → (∃ n, i = .fmtint n) ∨ ∃ v, i = .fmtflt v) ∧
    (t.rsp ≠ s.rsp → i ≠ .tick1hz ∧ i ≠ .tickmux) ∧
    t.cmds = s.cmds ∧ t.schedule = s.schedule ∧ t.rstN = s.rstN

/-- R61: a TICK1HZ step commutes with TICKMUX, WRCELL, RDCELL, FMTINT, FMTFLT, MUXON, MUXOFF and NOP, and with a cell write
of a format command: either order gives the same state and the same outputs. -/
def Obligations.SecondsCommuteWithTheDisplay : Prop :=
  (∀ (i : Instr) (s : State), i ≠ .tick1hz → i ≠ .rdtime → i ≠ .rdlocal → (∀ r, i ≠ .settime r) →
    ∃ t, execAll [.tick1hz, i] s = .next t ∧ execAll [i, .tick1hz] s = .next t) ∧
  ∀ (f : FrameWrite) (s : State), ∃ u,
    exec .tick1hz s = .next u ∧ exec .tick1hz (writeNextCell f s) = .next (writeNextCell f u) ∧
      writeNextCell f u = { writeNextCell f s with
        wall := cascade s.wall, tz := dstEvaluate (cascade s.wall) s.tz }

/-! ## The SegmentBuffer (20_memory.md, 40_segment_model.md) -/

/-- R50: MemWrite sets one cell and MemRead reads it back; every other cell reads as before; and the canonical form is
kept, in which memories that read alike are equal (log 13). -/
def Obligations.CellsReadBackAndStayCanonical : Prop :=
  ∀ (m : Memory), m.wf = true →
    (∀ (i j : CellIdx) (v : Byte), (m.write i v).read j = if j = i then v else m.read j) ∧
    (∀ (i : CellIdx) (v : Byte), (m.write i v).wf = true) ∧
    ∀ m' : Memory, m'.wf = true → (∀ i, m'.read i = m.read i) → m' = m

/-- R104: NOP responds OK and does nothing else; any argument but 0 is IllegalArg; the zero word is NOP. -/
def Obligations.NopOnlyResponds : Prop :=
  (∀ s : State, exec .nop s = .next { s with rsp := some ⟨.ok, 0⟩ }) ∧
  (∀ arg : Arg, decodeCommand (0x0#4 ++ arg) = if arg ≠ 0 then .error .illegalArg else .ok .nop) ∧
  decodeCommand 0 = .ok .nop

/-- R105: WRCELL writes the addressed cell and no other, changes nothing else (SEG_OUT, COL_OUT and CURSOR not even when the
cell is lit) and responds OK; an index of 6 or 7 is refused; the reserved bits are arg[63:11]. -/
def Obligations.WrcellWritesOneCell : Prop :=
  (∀ (idx : BitVec 3) (data : Byte) (s : State) (h : idx.toNat < 6), s.sb.wf = true →
    ∃ t, exec (.wrcell idx data) s = .next t ∧ t = { s with sb := t.sb, rsp := some ⟨.ok, 0⟩ } ∧
      t.sb.read ⟨idx.toNat, h⟩ = data ∧ ∀ j : CellIdx, j.val ≠ idx.toNat → t.sb.read j = s.sb.read j) ∧
  (∀ (idx : BitVec 3) (data : Byte) (s : State), idx.toNat > 5 →
    exec (.wrcell idx data) s = .next { s with rsp := some ⟨.illegalArg, 0⟩ }) ∧
  ∀ arg : Arg, decodeCommand (0x1#4 ++ arg) =
    if arg.extractLsb' 11 53 ≠ 0 then .error .illegalArg
    else .ok (.wrcell (arg.extractLsb' 8 3) (arg.extractLsb' 0 8))

/-- R106: RDCELL responds the addressed cell zero-extended to 64 bits and writes nothing; an index of 6 or 7 is refused;
the reserved bits are arg[63:11] and arg[7:0]. -/
def Obligations.RdcellRespondsTheCell : Prop :=
  (∀ (idx : BitVec 3) (s : State) (h : idx.toNat < 6),
    exec (.rdcell idx) s = .next { s with rsp := some ⟨.ok, (s.sb.read ⟨idx.toNat, h⟩).setWidth 64⟩ }) ∧
  (∀ (idx : BitVec 3) (s : State), idx.toNat > 5 →
    exec (.rdcell idx) s = .next { s with rsp := some ⟨.illegalArg, 0⟩ }) ∧
  ∀ arg : Arg, decodeCommand (0x2#4 ++ arg) =
    if arg.extractLsb' 11 53 ≠ 0 ∨ arg.extractLsb' 0 8 ≠ 0 then .error .illegalArg
    else .ok (.rdcell (arg.extractLsb' 8 3))

/-- R59, R264: a byte written by WRCELL shows on the segment lines at the first refresh tick that lands on its cell, and at
once on none. -/
def Obligations.WrittenCellShowsAtItsNextTurn : Prop :=
  ∀ (idx : BitVec 3) (data : Byte) (s : State) (k : Nat), idx.toNat < 6 → s.sb.wf = true → s.muxOn = true → 1 ≤ k →
    (s.cursor.toNat + k) % 6 = idx.toNat →
    ∃ t u, exec (.wrcell idx data) s = .next t ∧ t.segOut = s.segOut ∧
      execAll (List.replicate k .tickmux) t = .next u ∧ u.segOut = data ∧ u.colOut = 1#6 <<< idx.toNat

/-- R100 with R52: which segments each digit lights, bit 0 = a to bit 6 = g, the decimal point off. -/
def Obligations.DigitGlyphsLightTheirSegments : Prop :=
  let lit (segments : List Nat) : Byte := segments.foldl (fun b k => b ||| (1#8 <<< k)) 0
  dig 0 = lit [0, 1, 2, 3, 4, 5] ∧ dig 1 = lit [1, 2] ∧ dig 2 = lit [0, 1, 3, 4, 6] ∧
  dig 3 = lit [0, 1, 2, 3, 6] ∧ dig 4 = lit [1, 2, 5, 6] ∧ dig 5 = lit [0, 2, 3, 5, 6] ∧
  dig 6 = lit [0, 2, 3, 4, 5, 6] ∧ dig 7 = lit [0, 1, 2] ∧ dig 8 = lit [0, 1, 2, 3, 4, 5, 6] ∧
  dig 9 = lit [0, 1, 2, 3, 5, 6]

/-- R101 with R52: the glyph of each letter and sign of the table, as its byte and as the segments it lights, bit 0 = a to
bit 6 = g; and a digit character has the glyph of its digit. -/
def Obligations.LetterGlyphsLightTheirSegments : Prop :=
  let lit (segments : List Nat) : Byte := segments.foldl (fun b k => b ||| (1#8 <<< k)) 0
  let table : List (Char × Byte × List Nat) :=
    [(' ', 0x00, []), ('A', 0x77, [0, 1, 2, 4, 5, 6]), ('C', 0x39, [0, 3, 4, 5]), ('E', 0x79, [0, 3, 4, 5, 6]),
      ('f', 0x71, [0, 4, 5, 6]), ('H', 0x76, [1, 2, 4, 5, 6]), ('L', 0x38, [3, 4, 5]), ('N', 0x37, [0, 1, 2, 4, 5]),
      ('O', 0x3F, [0, 1, 2, 3, 4, 5]), ('R', 0x50, [4, 6]), ('S', 0x6D, [0, 2, 3, 5, 6])] ++
    [('-', 0x40, [6]), ('b', 0x7C, [2, 3, 4, 5, 6]), ('d', 0x5E, [1, 2, 3, 4, 6]), ('e', 0x7B, [0, 1, 3, 4, 5, 6]),
      ('g', 0x6F, [0, 1, 2, 3, 5, 6]), ('I', 0x30, [4, 5]), ('l', 0x30, [4, 5]), ('n', 0x54, [2, 4, 6]),
      ('o', 0x5C, [2, 3, 4, 6]), ('r', 0x50, [4, 6]), ('t', 0x78, [3, 4, 5, 6])]
  (∀ row ∈ table, glyph row.1 = some row.2.1 ∧ lit row.2.2 = row.2.1) ∧
  ∀ d : Fin 10, glyph (Char.ofNat (48 + d.val)) = some (dig d)

/-- R80, R103: WRMSG draws the message from the leading cell on, the rest blank, and CLRBUF clears every cell, whatever was
there, and nothing else changes but the response. -/
def Obligations.MessagesAreDrawnFromTheLeadingCell : Prop :=
  (∀ (text : String) (is : List Instr) (s : State), wrmsg text = some is → s.sb.wf = true →
    ∃ t, execAll is s = .next t ∧ t = { s with sb := t.sb, rsp := some ⟨.ok, 0⟩ } ∧
      (∀ i : CellIdx, some (t.sb.read i) = (text.toList[i.val]?).elim (some 0x00) glyph)) ∧
  ∀ s : State, s.sb.wf = true →
    ∃ t, execAll clrbuf s = .next t ∧ t = { s with sb := [], rsp := some ⟨.ok, 0⟩ }

/-! ## The multiplexer (41_display_mux.md) -/

/-- R120: while the multiplexer runs, TICKMUX advances CURSOR modulo 6, loads SEG_OUT from the new cell and selects that
cell alone; nothing else changes. -/
def Obligations.TickmuxShowsTheNextCell : Prop :=
  ∀ (s : State) (c : CellIdx), s.muxOn = true → c.val = (s.cursor.toNat + 1) % 6 →
    exec .tickmux s = .next { s with cursor := BitVec.ofNat 3 c.val, segOut := s.sb.read c, colOut := 1#6 <<< c.val }

/-- R122: while the multiplexer is suspended every TICKMUX is discarded: no state changes, the pins of every state that
meets the invariant of R125 stay dark, and nothing is made up later. -/
def Obligations.TickmuxSuspendedChangesNothing : Prop :=
  ∀ (s : State) (n : Nat), s.muxOn = false →
    execAll (List.replicate n .tickmux) s = .next s ∧ (MuxValid s → s.segOut = 0x00 ∧ s.colOut = 0)

/-- R121: the pins inside one TICKMUX step pass through (old SEG, old COL), (old SEG, 0), (new SEG, 0) and (new SEG, new
one-hot COL), in this order and no others; so at no instant are two columns selected, and a selected column shows either
what it showed before the step or the byte of its own cell. The last pair is what the pins show after the TICKMUX step. -/
def Obligations.PinsPassThroughTheFourActions : Prop :=
  ∀ (s : State) (c : CellIdx), MuxValid s → s.muxOn = true → c.val = (s.cursor.toNat + 1) % 6 →
    tickmuxTrace s =
      [(s.segOut, s.colOut), (s.segOut, 0), (s.segOut, 0), (s.sb.read c, 0), (s.sb.read c, 1#6 <<< c.val)] ∧
    (∀ p ∈ tickmuxTrace s, p.2 = 0 ∨ ∃ i : CellIdx, p.2 = 1#6 <<< i.val) ∧
    (∀ p ∈ tickmuxTrace s, p.2 ≠ 0 → p = (s.segOut, s.colOut) ∨ p = (s.sb.read c, 1#6 <<< c.val)) ∧
    ∃ t, exec .tickmux s = .next t ∧ (tickmuxTrace s).getLast? = some (muxPins t)

/-- R123: MUXON sets MUX_ON, responds OK and changes nothing else; any argument but 0 is IllegalArg. -/
def Obligations.MuxonOnlySetsTheBit : Prop :=
  (∀ s : State, exec .muxon s = .next { s with muxOn := true, rsp := some ⟨.ok, 0⟩ }) ∧
  ∀ arg : Arg, decodeCommand (0x8#4 ++ arg) = if arg ≠ 0 then .error .illegalArg else .ok .muxon

/-- R124: MUXOFF clears MUX_ON, darkens the pins, keeps CURSOR and SB, and responds OK; after a later MUXON the next TICKMUX
shows the cell after the one that was active; any argument but 0 is IllegalArg. -/
def Obligations.MuxoffDarkensAndKeepsTheScan : Prop :=
  (∀ s : State, exec .muxoff s = .next { s with muxOn := false, colOut := 0, segOut := 0x00, rsp := some ⟨.ok, 0⟩ }) ∧
  (∀ (s : State) (c : CellIdx), c.val = (s.cursor.toNat + 1) % 6 →
    ∃ t, execAll [.muxoff, .muxon, .tickmux] s = .next t ∧ t.cursor.toNat = c.val ∧ t.segOut = s.sb.read c ∧
      t.colOut = 1#6 <<< c.val ∧ t.sb = s.sb) ∧
  ∀ arg : Arg, decodeCommand (0x9#4 ++ arg) = if arg ≠ 0 then .error .illegalArg else .ok .muxoff

/-- R125, R126: after k refresh ticks of a running multiplexer the active cell is CURSOR + k modulo 6, showing its byte, and
in any six consecutive ticks every cell is active exactly once. -/
def Obligations.SixRefreshTicksShowEveryCellOnce : Prop :=
  ∀ s : State, s.muxOn = true →
    (∀ (k : Nat) (c : CellIdx), 1 ≤ k → c.val = (s.cursor.toNat + k) % 6 →
      execAll (List.replicate k .tickmux) s =
        .next { s with cursor := BitVec.ofNat 3 c.val, segOut := s.sb.read c, colOut := 1#6 <<< c.val }) ∧
    ∀ c : CellIdx, ∃ k, (1 ≤ k ∧ k ≤ 6 ∧ (s.cursor.toNat + k) % 6 = c.val) ∧
      ∀ k', 1 ≤ k' → k' ≤ 6 → (s.cursor.toNat + k') % 6 = c.val → k' = k

/-! ## The clock (42_rtc.md, 43_timezone.md) -/

/-- R140: the leap years are those divisible by 400, and those divisible by 4 but not by 100. -/
def Obligations.LeapYearsAreGregorian : Prop :=
  ∀ y : Nat, leap y = true ↔ 400 ∣ y ∨ (4 ∣ y ∧ ¬ 100 ∣ y)

/-- R142: the weekday advances by one, modulo 7, from every valid date but the last day of year 65535 to the next, and 1
January 2000 is a Saturday, so DOW is the weekday of the Gregorian calendar. -/
def Obligations.WeekdayAdvancesWithTheDate : Prop :=
  (∀ w : WallClock, 1 ≤ w.month.toNat → w.month.toNat ≤ 12 → 1 ≤ w.day.toNat →
    w.day.toNat ≤ dim w.year.toNat w.month.toNat →
    ¬ (w.year.toNat = 65535 ∧ w.month.toNat = 12 ∧ w.day.toNat = 31) →
      dow (nextDay w).year.toNat (nextDay w).month.toNat (nextDay w).day.toNat =
        (dow w.year.toNat w.month.toNat w.day.toNat + 1) % 7) ∧
  dow 2000 1 1 = 6 ∧ ∀ y m d, dow y m d < 7

/-- R143: the backward scan from day 31 ends within seven probes, on a Sunday, with no Sunday after it up to day 31. -/
def Obligations.LastSundayScanEndsWithinSevenProbes : Prop :=
  ∀ y m : Nat, 1 ≤ m → m ≤ 12 →
    25 ≤ lastSun y m ∧ lastSun y m ≤ 31 ∧ dow y m (lastSun y m) = 0 ∧
      ∀ d, lastSun y m < d → d ≤ 31 → dow y m d ≠ 0

/-- R144: the cascade of TICK1HZ from every valid time, unit by unit, with DIM of the month being left and YEAR wrapping
modulo 65536, and the DST evaluation on the new values. Nothing but WallClock and TZ changes and there is no response. -/
def Obligations.SecondsCascadeThroughTheCalendar : Prop :=
  ∀ s : State, ClockValid s → ∃ t, exec .tick1hz s = .next t ∧ t = { s with wall := t.wall, tz := t.tz } ∧
    t.tz = dstEvaluate t.wall s.tz ∧
    (s.wall.sec.toNat < 59 → t.wall = { s.wall with sec := s.wall.sec + 1 }) ∧
    (s.wall.sec.toNat = 59 →
      (s.wall.min.toNat < 59 → t.wall = { s.wall with sec := 0, min := s.wall.min + 1 }) ∧
      (s.wall.min.toNat = 59 →
        (s.wall.hour.toNat < 23 → t.wall = { s.wall with sec := 0, min := 0, hour := s.wall.hour + 1 }) ∧
        (s.wall.hour.toNat = 23 →
          (s.wall.day.toNat < dim s.wall.year.toNat s.wall.month.toNat →
            t.wall = { s.wall with sec := 0, min := 0, hour := 0, day := s.wall.day + 1 }) ∧
          (s.wall.day.toNat = dim s.wall.year.toNat s.wall.month.toNat →
            (s.wall.month.toNat < 12 →
              t.wall = { s.wall with sec := 0, min := 0, hour := 0, day := 1, month := s.wall.month + 1 }) ∧
            (s.wall.month.toNat = 12 →
              t.wall = { sec := 0, min := 0, hour := 0, day := 1, month := 1, year := s.wall.year + 1 })))))

/-- R145, R146: after the cascade of the same step, TZ becomes 1 when the new time is 01:00:00 on a Sunday of March on or
after the last one, 0 when it is 01:00:00 on such a Sunday of October, and is unchanged otherwise. -/
def Obligations.DaylightSavingFollowsTheLastSunday : Prop :=
  ∀ s : State, ∃ t, exec .tick1hz s = .next t ∧
    (t.wall.hour.toNat = 1 ∧ t.wall.min.toNat = 0 ∧ t.wall.sec.toNat = 0 ∧
        dow t.wall.year.toNat t.wall.month.toNat t.wall.day.toNat = 0 →
      (t.wall.month.toNat = 3 ∧ t.wall.day.toNat ≥ lastSun t.wall.year.toNat 3 → t.tz = 1) ∧
      (t.wall.month.toNat = 10 ∧ t.wall.day.toNat ≥ lastSun t.wall.year.toNat 10 → t.tz = 0) ∧
      (¬ (t.wall.month.toNat = 3 ∧ t.wall.day.toNat ≥ lastSun t.wall.year.toNat 3) →
        ¬ (t.wall.month.toNat = 10 ∧ t.wall.day.toNat ≥ lastSun t.wall.year.toNat 10) → t.tz = s.tz)) ∧
    (¬ (t.wall.hour.toNat = 1 ∧ t.wall.min.toNat = 0 ∧ t.wall.sec.toNat = 0 ∧
        dow t.wall.year.toNat t.wall.month.toNat t.wall.day.toNat = 0) → t.tz = s.tz)

/-- R150: TICK1HZ keeps VALIDTIME, and 86400 steps from any valid midnight advance the date by exactly one day and return to
0:0:0, changing nothing but WallClock and TZ. -/
def Obligations.OneDayOfTicksAdvancesTheDate : Prop :=
  (∀ s t : State, ClockValid s → exec .tick1hz s = .next t → ClockValid t) ∧
  ∀ s : State, ClockValid s → s.wall.hour = 0 → s.wall.min = 0 → s.wall.sec = 0 →
    ∃ t, execAll (List.replicate 86400 .tick1hz) s = .next t ∧ t = { s with wall := t.wall, tz := t.tz } ∧
      t.wall = nextDay s.wall ∧ t.wall.hour = 0 ∧ t.wall.min = 0 ∧ t.wall.sec = 0

/-- R151: one second after 65535-12-31 23:59:59 it is 0-01-01 00:00:00, and the clock counts on from there. Such a run lies
outside what the document behind the spec describes (U3, log 24). -/
def Obligations.YearWrapsAfter65535 : Prop :=
  ∀ s : State, s.wall = ⟨59, 59, 23, 31, 12, 65535⟩ →
    exec .tick1hz s = .next { s with wall := ⟨0, 0, 0, 1, 1, 0⟩ } ∧
    execAll [.tick1hz, .tick1hz] s = .next { s with wall := ⟨1, 0, 0, 1, 1, 0⟩ }

/-- R147: a record with a year of 1 to 65535 and a valid time replaces WallClock and TZ together, changes nothing else, does
not evaluate the DST rule, and responds OK; any other record is refused; the reserved bits are arg[63:57]. -/
def Obligations.SettimeReplacesTheClockOrRefuses : Prop :=
  (∀ (r : TimeRecord) (s : State), r.year.toNat ≠ 0 →
    validTime r.sec.toNat r.min.toNat r.hour.toNat r.day.toNat r.month.toNat r.year.toNat = true →
    ∃ t, exec (.settime r) s = .next t ∧ t = { s with wall := t.wall, tz := r.tz, rsp := some ⟨.ok, 0⟩ } ∧
      t.wall.sec.toNat = r.sec.toNat ∧ t.wall.min.toNat = r.min.toNat ∧ t.wall.hour.toNat = r.hour.toNat ∧
      t.wall.day.toNat = r.day.toNat ∧ t.wall.month.toNat = r.month.toNat ∧ t.wall.year = r.year) ∧
  (∀ (r : TimeRecord) (s : State),
    r.year.toNat = 0 ∨
      validTime r.sec.toNat r.min.toNat r.hour.toNat r.day.toNat r.month.toNat r.year.toNat = false →
    exec (.settime r) s = .next { s with rsp := some ⟨.illegalArg, 0⟩ }) ∧
  ∀ arg : Arg, decodeCommand (0x5#4 ++ arg) =
    if arg.extractLsb' 57 7 ≠ 0 then .error .illegalArg
    else .ok (.settime ⟨arg.extractLsb' 0 8, arg.extractLsb' 8 8, arg.extractLsb' 16 8, arg.extractLsb' 24 8,
      arg.extractLsb' 32 8, arg.extractLsb' 40 16, arg.extractLsb' 56 1⟩)

/-- R148: RDTIME responds {0, TZ, YEAR, MONTH, DAY, HOUR, MIN, SEC}, each but TZ and YEAR zero-extended to its byte, and
writes nothing; any argument but 0 is IllegalArg. -/
def Obligations.RdtimeRespondsTheRecord : Prop :=
  (∀ s : State, exec .rdtime s = .next { s with rsp := some ⟨.ok,
    0#7 ++ s.tz ++ s.wall.year ++ s.wall.month.setWidth 8 ++ s.wall.day.setWidth 8 ++ s.wall.hour.setWidth 8 ++
      s.wall.min.setWidth 8 ++ s.wall.sec.setWidth 8⟩ }) ∧
  ∀ arg : Arg, decodeCommand (0x6#4 ++ arg) = if arg ≠ 0 then .error .illegalArg else .ok .rdtime

/-- A record SETTIME accepts is the record RDTIME then responds, bit for bit (R76, R147, R148). -/
def Obligations.SettimeThenRdtimeGivesTheRecordBack : Prop :=
  ∀ (r : TimeRecord) (s : State), settable r = true →
    ∃ t, execAll [.settime r, .rdtime] s = .next t ∧ t.rsp = some ⟨.ok, r.pack⟩ ∧ TimeRecord.unpack r.pack = r

/-- R170: LOCAL adds TZ to the hour; past midnight it subtracts 24 and advances the date by the calendar rules; with TZ = 0
it is the identity; minutes and seconds are never shifted; from a valid time the result is a valid time. -/
def Obligations.LocalTimeAddsTheOffsetWithRollover : Prop :=
  ∀ s : State, ClockValid s →
    (s.tz = 0 → localClock s.wall s.tz = s.wall) ∧
    (s.tz = 1 → s.wall.hour.toNat < 23 → localClock s.wall s.tz = { s.wall with hour := s.wall.hour + 1 }) ∧
    (s.tz = 1 → s.wall.hour.toNat = 23 →
      (s.wall.day.toNat < dim s.wall.year.toNat s.wall.month.toNat →
        localClock s.wall s.tz = { s.wall with hour := 0, day := s.wall.day + 1 }) ∧
      (s.wall.day.toNat = dim s.wall.year.toNat s.wall.month.toNat → s.wall.month.toNat < 12 →
        localClock s.wall s.tz = { s.wall with hour := 0, day := 1, month := s.wall.month + 1 }) ∧
      (s.wall.day.toNat = dim s.wall.year.toNat s.wall.month.toNat → s.wall.month.toNat = 12 →
        localClock s.wall s.tz = { s.wall with hour := 0, day := 1, month := 1, year := s.wall.year + 1 })) ∧
    ClockValid { s with wall := localClock s.wall s.tz }

/-- R171: RDLOCAL responds a time record whose hour, day, month and year are LocalClock's and whose min, sec and tz are
copies of MIN, SEC and TZ, and writes nothing; any argument but 0 is IllegalArg. -/
def Obligations.RdlocalRespondsLocalTime : Prop :=
  (∀ s : State, ∃ l : WallClock, l = localClock s.wall s.tz ∧ exec .rdlocal s = .next { s with rsp := some ⟨.ok,
    0#7 ++ s.tz ++ l.year ++ l.month.setWidth 8 ++ l.day.setWidth 8 ++ l.hour.setWidth 8 ++
      s.wall.min.setWidth 8 ++ s.wall.sec.setWidth 8⟩ }) ∧
  ∀ arg : Arg, decodeCommand (0x7#4 ++ arg) = if arg ≠ 0 then .error .illegalArg else .ok .rdlocal

/-! ## The formatters (44_fmt_int.md, 45_fmt_float.md) -/

/-- R186, R212, R188: FMTINT and FMTFLT compute the frame of their operand alone and begin its write-out at cell 0; the step
changes nothing else. The reserved bits of FMTFLT are arg[63:32]; every argument is legal for FMTINT. -/
def Obligations.FormatCommandsBeginTheirWriteOut : Prop :=
  (∀ (v : BitVec 64) (s : State),
    exec (.fmtint v) s = .next { s with flight := some ⟨intFrame v.toInt, 0⟩ }) ∧
  (∀ (v : BitVec 32) (s : State), exec (.fmtflt v) s = .next { s with flight := some ⟨floatFrame v, 0⟩ }) ∧
  (∀ arg : Arg, decodeCommand (0x3#4 ++ arg) = .ok (.fmtint arg)) ∧
  ∀ arg : Arg, decodeCommand (0x4#4 ++ arg) =
    if arg.extractLsb' 32 32 ≠ 0 then .error .illegalArg else .ok (.fmtflt (arg.extractLsb' 0 32))

/-- R188, R267: while a format command is in progress, a turn of the command agent writes exactly its next cell, in
ascending order, an atomic step; the host's next word is not taken; the response comes with the sixth write and not before
(log 4). -/
def Obligations.BusyTurnWritesTheNextCell : Prop :=
  ∀ (s : State) (f : FrameWrite) (rest : List Slot),
    s.rstN = true → s.flight = some f → s.schedule = .command :: rest → s.sb.wf = true →
    ∃ t, step s = .next t ∧
      t = { s with sb := t.sb, flight := t.flight, rsp := t.rsp, schedule := rest } ∧
      t.sb.read f.next = f.frame.cell f.next ∧ (∀ j : CellIdx, j ≠ f.next → t.sb.read j = s.sb.read j) ∧
      (f.next.val < 5 → t.rsp = none ∧ ∃ n : CellIdx, n.val = f.next.val + 1 ∧ t.flight = some ⟨f.frame, n⟩) ∧
      (f.next.val = 5 → t.rsp = some ⟨.ok, 0⟩ ∧ t.flight = none)

/-- R188, R56, U14: under every placement of tick events among the turns of the command agent, after the k-th cell write
of a format command the first k cells are the frame's and the others as they were; after the sixth, SB is the frame
exactly, nothing is in flight and the response is OK with data 0. The remaining writes are those computed at the start.
That the response comes with the sixth write, in the same step, is the model's reading (log 4). -/
def Obligations.WriteOutIsExactUnderEveryInterleaving : Prop :=
  ∀ (s : State) (c : Frame) (gaps : List (List EvtWord)),
    s.rstN = true → s.flight = some ⟨c, 0⟩ → s.sb.wf = true → s.schedule = interleaved gaps → gaps.length ≤ 6 →
    ∃ t, runSteps (interleavedSteps gaps) s = .next t ∧
      (∀ i : CellIdx, t.sb.read i = if i.val < gaps.length then c.cell i else s.sb.read i) ∧
      (∀ h : gaps.length < 6, 0 < gaps.length → t.flight = some ⟨c, ⟨gaps.length, h⟩⟩ ∧ t.rsp = none) ∧
      (gaps.length = 6 → t.sb.frame = c ∧ t.flight = none ∧ t.rsp = some ⟨.ok, 0⟩) ∧ t.cmds = s.cmds

/-- R234, R236: ticks are never deferred or lost: whatever turns of the command agent they fall among while a format
command writes its cells, WallClock counts every `tick_1hz` pulse and, while the multiplexer runs, CURSOR every `tick_mux`
pulse. The host may have any further words waiting, as long as the turns are those the write-out still needs; with none
waiting there may be any number of turns. -/
def Obligations.TicksAreNeverDeferredOrLost : Prop :=
  ∀ (s : State) (f : FrameWrite) (gaps : List (List EvtWord)),
    s.rstN = true → s.flight = some f → s.cmds = [] ∨ f.next.val + gaps.length ≤ 6 → s.cursor.toNat < 6 →
    s.schedule = interleaved gaps →
    ∃ t, runSteps (interleavedSteps gaps) s = .next t ∧
      t.wall = cascade^[secondsIn gaps] s.wall ∧
      (s.muxOn = true → t.cursor.toNat = (s.cursor.toNat + refreshesIn gaps) % 6) ∧
      (s.muxOn = false → t.cursor = s.cursor) ∧ t.muxOn = s.muxOn

/-- R186, R212, R188: a format command offered to a ready block completes in its own step and six cell writes: SB holds its
frame in every cell, the response is OK with data 0, and no register but SB has changed. That the response comes with the
sixth write is log 4; that the steps of an empty schedule are turns of the command agent is log 2. -/
def Obligations.FormatCommandsComplete : Prop :=
  ∀ (s : State) (i : Instr) (c : Frame), Ready s → s.sb.wf = true → s.schedule = [] →
    ((∃ v : BitVec 64, i = .fmtint v ∧ c = intFrame v.toInt) ∨ ∃ v : BitVec 32, i = .fmtflt v ∧ c = floatFrame v) →
    ∀ (w : CmdWord) (ws : List CmdWord), encode i = .cmd w → s.cmds = w :: ws →
      ∃ t, runSteps 7 s = .next t ∧ t.sb.frame = c ∧
        t = { s with sb := t.sb, cmds := ws, rsp := some ⟨.ok, 0⟩ }

/-- R181, R182: zero is a lone 0 in cell 5; a magnitude that fits the digit cells is right-justified, its leading cells
blank, no point lit, a minus sign in cell 0 when negative. -/
def Obligations.IntegersThatFitAreRightJustified : Prop :=
  intFrame 0 = ⟨0x00, 0x00, 0x00, 0x00, 0x00, 0x3F⟩ ∧
  ∀ (x : Int) (n : Nat), x ≠ 0 → n = (if x < 0 then 5 else 6) → x.natAbs < 10 ^ n →
    (x < 0 → (intFrame x).cell 0 = 0x40) ∧
    ∀ (k : Nat) (c : CellIdx), k < n → c.val + k = 5 →
      (intFrame x).cell c =
        if k = 0 ∨ x.natAbs ≥ 10 ^ k then dig ⟨(x.natAbs / 10 ^ k) % 10, Nat.mod_lt _ (by decide)⟩ else 0x00

/-- R183, R184: a 64-bit magnitude that does not fit is shown with its leading 3 (2 with a sign) digits rounded to nearest,
ties away from zero, renormalised when the rounding carries, the point after the first digit, and the exponent cells in
cells 3 to 5. -/
def Obligations.WideIntegersAreRoundedScientific : Prop :=
  ∀ (x : Int) (n : Nat), -(2 ^ 63) ≤ x → x < 2 ^ 63 → n = (if x < 0 then 5 else 6) → 10 ^ n ≤ x.natAbs →
    ∃ e q e' nm first s : Nat,
      10 ^ e ≤ x.natAbs ∧ x.natAbs < 10 ^ (e + 1) ∧ 5 ≤ e ∧ e ≤ 18 ∧ e' ≤ 18 ∧
      nm = n - 3 ∧ first = 6 - n ∧ s = e - nm + 1 ∧
      (let q0 := (x.natAbs + 10 ^ s / 2) / 10 ^ s
       (q0 = 10 ^ nm → q = 10 ^ (nm - 1) ∧ e' = e + 1) ∧ (q0 ≠ 10 ^ nm → q = q0 ∧ e' = e) ∧
       2 * (q0 * 10 ^ s) ≤ 2 * x.natAbs + 10 ^ s ∧ 2 * x.natAbs < 2 * (q0 * 10 ^ s) + 10 ^ s) ∧
      (x < 0 → (intFrame x).cell 0 = 0x40) ∧
      (∀ (i : Nat) (c : CellIdx), i < nm → c.val = first + i →
        (intFrame x).cell c =
          dig ⟨(q / 10 ^ (nm - 1 - i)) % 10, Nat.mod_lt _ (by decide)⟩ ||| (if i = 0 then 0x80 else 0x00)) ∧
      [(intFrame x).cell 3, (intFrame x).cell 4, (intFrame x).cell 5] = expCells e'

/-- R185: the exponent cells of every exponent from -99 to 99. -/
def Obligations.ExponentCellsHaveFourLayouts : Prop :=
  let d (k : Nat) : Byte := dig ⟨k % 10, Nat.mod_lt _ (by decide)⟩
  ∀ e : Nat, e ≤ 99 →
    (10 ≤ e → expCells e = [0x79, d (e / 10), d e] ∧ expCells (-(e : Int)) = [0x79, 0x40, d (e / 10), d e]) ∧
    (e ≤ 9 → expCells e = [0x79, d e, 0x00]) ∧
    (1 ≤ e → e ≤ 9 → expCells (-(e : Int)) = [0x79, 0x40, d e])

/-- R187: the most negative operand is shown as -9.2E18. -/
def Obligations.MostNegativeIntegerIsShown : Prop :=
  signedOperand 0x8000000000000000 = -(2 ^ 63) ∧
  intFrame (-(2 ^ 63)) = ⟨0x40, 0xEF, 0x5B, 0x79, 0x06, 0x7F⟩

/-- R201 to R204: every NaN shows "Error", the infinities show "Inf" and "negInf", and both zeros the integer 0. -/
def Obligations.SpecialFloatsShowTheirMessages : Prop :=
  ∀ v : BitVec 32,
    (fltExp v = 255 → fltFrac v ≠ 0 → floatFrame v = ⟨0x79, 0x50, 0x50, 0x5C, 0x50, 0x00⟩) ∧
    (fltExp v = 255 → fltFrac v = 0 → fltNeg v = false → floatFrame v = ⟨0x30, 0x54, 0x71, 0x00, 0x00, 0x00⟩) ∧
    (fltExp v = 255 → fltFrac v = 0 → fltNeg v = true → floatFrame v = ⟨0x54, 0x7B, 0x6F, 0x30, 0x54, 0x71⟩) ∧
    (fltExp v = 0 → fltFrac v = 0 → floatFrame v = ⟨0x00, 0x00, 0x00, 0x00, 0x00, 0x3F⟩)

/-- R200, R207: the magnitude of every finite nonzero pattern is the rational R200 gives, and its order p is the integer
with 10^p <= V < 10^(p+1), within -45 to 38. -/
def Obligations.OrderOfMagnitudeIsExact : Prop :=
  ∀ v : BitVec 32, classify v = .finite →
    (magnitude v).toRat = floatValue v ∧
    (10 : ℚ) ^ order (magnitude v) ≤ floatValue v ∧ floatValue v < (10 : ℚ) ^ (order (magnitude v) + 1) ∧
    -45 ≤ order (magnitude v) ∧ order (magnitude v) ≤ 38

/-- R205, R206, R208, R209: in exact rational arithmetic, the fixed form of every finite nonzero pattern that has one. -/
def Obligations.FixedFloatsFollowTheRationalRule : Prop :=
  ∀ (v : BitVec 32) (n first : Nat) (p : ℤ) (V : ℚ), classify v = .finite → V = floatValue v →
    n = (if fltNeg v then 5 else 6) → first = 6 - n → (10 : ℚ) ^ p ≤ V → V < (10 : ℚ) ^ (p + 1) →
    ¬ (V < 1 / 1000 ∨ V > (10 : ℚ) ^ n - 1) →
    ∃ (pp : Nat) (W : ℚ),
      (let w := V / (10 : ℚ) ^ (max p 0) + 1 / 1000000
       (10 ≤ w → W = w / 10 ∧ (pp : ℤ) = max p 0 + 1) ∧ (w < 10 → W = w ∧ (pp : ℤ) = max p 0)) ∧
      pp ≤ n - 1 ∧ (fltNeg v = true → (floatFrame v).cell 0 = 0x40) ∧
      ∀ (i : Nat) (c : CellIdx), i < n → c.val = first + i →
        (floatFrame v).cell c =
          dig ⟨(⌊W * (10 : ℚ) ^ (n - 1)⌋₊ / 10 ^ (n - 1 - i)) % 10, Nat.mod_lt _ (by decide)⟩ |||
            (if i = pp then 0x80 else 0x00)

/-- R205, R206, R208, R210: in exact rational arithmetic, the scientific form of every finite nonzero pattern that has
one. -/
def Obligations.ScientificFloatsFollowTheRationalRule : Prop :=
  ∀ (v : BitVec 32) (n first : Nat) (p : ℤ) (V : ℚ), classify v = .finite → V = floatValue v →
    n = (if fltNeg v then 5 else 6) → first = 6 - n → (10 : ℚ) ^ p ≤ V → V < (10 : ℚ) ^ (p + 1) →
    (V < 1 / 1000 ∨ V > (10 : ℚ) ^ n - 1) →
    ∃ (e : ℤ) (nm : Nat) (W : ℚ),
      (let w := V / (10 : ℚ) ^ p + 1 / 1000000
       (10 ≤ w → W = w / 10 ∧ e = p + 1) ∧ (w < 10 → W = w ∧ e = p)) ∧
      nm = n - (expCells e).length ∧ 1 ≤ nm ∧ (fltNeg v = true → (floatFrame v).cell 0 = 0x40) ∧
      (∀ (i : Nat) (c : CellIdx), i < nm → c.val = first + i →
        (floatFrame v).cell c =
          dig ⟨(⌊W * (10 : ℚ) ^ (nm - 1)⌋₊ / 10 ^ (nm - 1 - i)) % 10, Nat.mod_lt _ (by decide)⟩ |||
            (if i = 0 then 0x80 else 0x00)) ∧
      ∀ (j : Nat) (c : CellIdx), c.val = first + nm + j → (expCells e)[j]? = some ((floatFrame v).cell c)

/-! ## Reset and invariants (10_state.md R22, R33; 70_reset_and_hazards.md R260, R261) -/

/-- R33: the reset value of every register, and RDTIME directly after reset. -/
def Obligations.ResetGivesTheListedValues : Prop :=
  State.reset.wall = ⟨0, 0, 0, 1, 1, 2013⟩ ∧ State.reset.tz = 0 ∧ (∀ i, State.reset.sb.read i = 0x00) ∧
  State.reset.cursor = 0 ∧ State.reset.muxOn = false ∧ State.reset.segOut = 0x00 ∧ State.reset.colOut = 0 ∧
  State.reset.flight = none ∧
  exec .rdtime State.reset = .next { State.reset with rsp := some ⟨.ok, 0x0007DD0101000000⟩ }

/-- R260, R261: asserting rst_n abandons what is in progress with no response and gives every register its reset value;
while rst_n is low ticks are ignored and not remembered, no command is accepted, and every register holds its reset value;
so it does in the first step after rst_n goes high, from which the first TICK1HZ counts to 00:00:01. A step on an empty
schedule is a turn of the command agent (log 2), under reset too. -/
def Obligations.AssertedResetHoldsEveryRegister : Prop :=
  (∀ (s : State) (rest : List Slot), s.schedule = .rst false :: rest →
    step s = .next { State.reset with cmds := s.cmds, schedule := rest, rstN := false }) ∧
  (∀ (s : State) (slot : Slot) (rest : List Slot), s.rstN = false → s.schedule = slot :: rest → slot ≠ .rst true →
    step s = .next { State.reset with cmds := s.cmds, schedule := rest, rstN := false }) ∧
  (∀ (s : State) (rest : List Slot), s.rstN = false → s.schedule = .rst true :: rest →
    step s = .next { State.reset with cmds := s.cmds, schedule := rest, rstN := true }) ∧
  (∀ s : State, s.rstN = false → s.schedule = [] →
    step s = .next { State.reset with cmds := s.cmds, schedule := [], rstN := false }) ∧
  exec .tick1hz State.reset = .next { State.reset with wall := ⟨1, 0, 0, 1, 1, 2013⟩ }

/-- The reset state meets the invariant (R22, R33). -/
def Obligations.ResetStateMeetsTheInvariant : Prop :=
  BoundaryInv State.reset

/-- R22, R125: every step from every state that meets the invariant gives a state that meets it: the clock shows a valid
date, the multiplexer's registers are as R125 says, and the SegmentBuffer is canonical. -/
def Obligations.EveryStepKeepsTheInvariant : Prop :=
  ∀ s t : State, BoundaryInv s → step s = .next t → BoundaryInv t
end

