-- ==== Sys2Proof/Laws/State.lean ====
section
/-! SUPPORT. One lemma per field per update of State, so that no proof unfolds a record update. -/

namespace Sys2Proof.Machine

/-! ### `respond` and `raise` write the response port only. -/

@[simp] theorem respond_wall (v : BitVec 64) (s : State) : (respond v s).wall = s.wall := rfl
@[simp] theorem respond_tz (v : BitVec 64) (s : State) : (respond v s).tz = s.tz := rfl
@[simp] theorem respond_sb (v : BitVec 64) (s : State) : (respond v s).sb = s.sb := rfl
@[simp] theorem respond_cursor (v : BitVec 64) (s : State) : (respond v s).cursor = s.cursor := rfl
@[simp] theorem respond_muxOn (v : BitVec 64) (s : State) : (respond v s).muxOn = s.muxOn := rfl
@[simp] theorem respond_segOut (v : BitVec 64) (s : State) : (respond v s).segOut = s.segOut := rfl
@[simp] theorem respond_colOut (v : BitVec 64) (s : State) : (respond v s).colOut = s.colOut := rfl
@[simp] theorem respond_flight (v : BitVec 64) (s : State) : (respond v s).flight = s.flight := rfl
@[simp] theorem respond_rsp (v : BitVec 64) (s : State) : (respond v s).rsp = some ⟨.ok, v⟩ := rfl
@[simp] theorem respond_cmds (v : BitVec 64) (s : State) : (respond v s).cmds = s.cmds := rfl
@[simp] theorem respond_schedule (v : BitVec 64) (s : State) : (respond v s).schedule = s.schedule := rfl
@[simp] theorem respond_rstN (v : BitVec 64) (s : State) : (respond v s).rstN = s.rstN := rfl

@[simp] theorem raise_wall (r : Reject) (s : State) : (raise r s).wall = s.wall := rfl
@[simp] theorem raise_tz (r : Reject) (s : State) : (raise r s).tz = s.tz := rfl
@[simp] theorem raise_sb (r : Reject) (s : State) : (raise r s).sb = s.sb := rfl
@[simp] theorem raise_cursor (r : Reject) (s : State) : (raise r s).cursor = s.cursor := rfl
@[simp] theorem raise_muxOn (r : Reject) (s : State) : (raise r s).muxOn = s.muxOn := rfl
@[simp] theorem raise_segOut (r : Reject) (s : State) : (raise r s).segOut = s.segOut := rfl
@[simp] theorem raise_colOut (r : Reject) (s : State) : (raise r s).colOut = s.colOut := rfl
@[simp] theorem raise_flight (r : Reject) (s : State) : (raise r s).flight = s.flight := rfl
@[simp] theorem raise_rsp (r : Reject) (s : State) : (raise r s).rsp = some ⟨Reject.status r, 0⟩ := rfl
@[simp] theorem raise_cmds (r : Reject) (s : State) : (raise r s).cmds = s.cmds := rfl
@[simp] theorem raise_schedule (r : Reject) (s : State) : (raise r s).schedule = s.schedule := rfl
@[simp] theorem raise_rstN (r : Reject) (s : State) : (raise r s).rstN = s.rstN := rfl

/-! ### `startFormat` writes the in-flight work only. -/

@[simp] theorem startFormat_wall (c : Frame) (s : State) : (startFormat c s).wall = s.wall := rfl
@[simp] theorem startFormat_tz (c : Frame) (s : State) : (startFormat c s).tz = s.tz := rfl
@[simp] theorem startFormat_sb (c : Frame) (s : State) : (startFormat c s).sb = s.sb := rfl
@[simp] theorem startFormat_cursor (c : Frame) (s : State) : (startFormat c s).cursor = s.cursor := rfl
@[simp] theorem startFormat_muxOn (c : Frame) (s : State) : (startFormat c s).muxOn = s.muxOn := rfl
@[simp] theorem startFormat_segOut (c : Frame) (s : State) : (startFormat c s).segOut = s.segOut := rfl
@[simp] theorem startFormat_colOut (c : Frame) (s : State) : (startFormat c s).colOut = s.colOut := rfl
@[simp] theorem startFormat_flight (c : Frame) (s : State) : (startFormat c s).flight = some ⟨c, 0⟩ := rfl
@[simp] theorem startFormat_rsp (c : Frame) (s : State) : (startFormat c s).rsp = s.rsp := rfl
@[simp] theorem startFormat_cmds (c : Frame) (s : State) : (startFormat c s).cmds = s.cmds := rfl
@[simp] theorem startFormat_schedule (c : Frame) (s : State) : (startFormat c s).schedule = s.schedule := rfl
@[simp] theorem startFormat_rstN (c : Frame) (s : State) : (startFormat c s).rstN = s.rstN := rfl

/-! ### `writeNextCell` writes one cell, the in-flight work and, at the end, the response port. -/

@[simp] theorem writeNextCell_wall (f : FrameWrite) (s : State) : (writeNextCell f s).wall = s.wall := rfl
@[simp] theorem writeNextCell_tz (f : FrameWrite) (s : State) : (writeNextCell f s).tz = s.tz := rfl
@[simp] theorem writeNextCell_sb (f : FrameWrite) (s : State) :
    (writeNextCell f s).sb = s.sb.write f.next (f.frame.cell f.next) := rfl
@[simp] theorem writeNextCell_cursor (f : FrameWrite) (s : State) : (writeNextCell f s).cursor = s.cursor := rfl
@[simp] theorem writeNextCell_muxOn (f : FrameWrite) (s : State) : (writeNextCell f s).muxOn = s.muxOn := rfl
@[simp] theorem writeNextCell_segOut (f : FrameWrite) (s : State) : (writeNextCell f s).segOut = s.segOut := rfl
@[simp] theorem writeNextCell_colOut (f : FrameWrite) (s : State) : (writeNextCell f s).colOut = s.colOut := rfl
@[simp] theorem writeNextCell_flight (f : FrameWrite) (s : State) : (writeNextCell f s).flight = f.advance := rfl
@[simp] theorem writeNextCell_rsp (f : FrameWrite) (s : State) :
    (writeNextCell f s).rsp = if f.advance.isSome then s.rsp else some ⟨.ok, 0⟩ := rfl
@[simp] theorem writeNextCell_cmds (f : FrameWrite) (s : State) : (writeNextCell f s).cmds = s.cmds := rfl
@[simp] theorem writeNextCell_schedule (f : FrameWrite) (s : State) : (writeNextCell f s).schedule = s.schedule := rfl
@[simp] theorem writeNextCell_rstN (f : FrameWrite) (s : State) : (writeNextCell f s).rstN = s.rstN := rfl

/-! ### `afterSlot` takes a slot off the schedule and clears the response port. -/

@[simp] theorem afterSlot_wall (l : List Slot) (s : State) : (afterSlot l s).wall = s.wall := rfl
@[simp] theorem afterSlot_tz (l : List Slot) (s : State) : (afterSlot l s).tz = s.tz := rfl
@[simp] theorem afterSlot_sb (l : List Slot) (s : State) : (afterSlot l s).sb = s.sb := rfl
@[simp] theorem afterSlot_cursor (l : List Slot) (s : State) : (afterSlot l s).cursor = s.cursor := rfl
@[simp] theorem afterSlot_muxOn (l : List Slot) (s : State) : (afterSlot l s).muxOn = s.muxOn := rfl
@[simp] theorem afterSlot_segOut (l : List Slot) (s : State) : (afterSlot l s).segOut = s.segOut := rfl
@[simp] theorem afterSlot_colOut (l : List Slot) (s : State) : (afterSlot l s).colOut = s.colOut := rfl
@[simp] theorem afterSlot_flight (l : List Slot) (s : State) : (afterSlot l s).flight = s.flight := rfl
@[simp] theorem afterSlot_rsp (l : List Slot) (s : State) : (afterSlot l s).rsp = none := rfl
@[simp] theorem afterSlot_cmds (l : List Slot) (s : State) : (afterSlot l s).cmds = s.cmds := rfl
@[simp] theorem afterSlot_schedule (l : List Slot) (s : State) : (afterSlot l s).schedule = l := rfl
@[simp] theorem afterSlot_rstN (l : List Slot) (s : State) : (afterSlot l s).rstN = s.rstN := rfl

/-! ### `holdReset` keeps only the inputs still to come. -/

@[simp] theorem holdReset_registers (s : State) : (holdReset s).registers = State.reset.registers := rfl
@[simp] theorem holdReset_flight (s : State) : (holdReset s).flight = none := rfl
@[simp] theorem holdReset_rsp (s : State) : (holdReset s).rsp = none := rfl
@[simp] theorem holdReset_cmds (s : State) : (holdReset s).cmds = s.cmds := rfl
@[simp] theorem holdReset_schedule (s : State) : (holdReset s).schedule = s.schedule := rfl
@[simp] theorem holdReset_rstN (s : State) : (holdReset s).rstN = false := rfl

/-! ### The calendar carries write only their own units. -/

@[simp] theorem nextYear_sec (w : WallClock) : (nextYear w).sec = w.sec := rfl
@[simp] theorem nextYear_min (w : WallClock) : (nextYear w).min = w.min := rfl
@[simp] theorem nextYear_hour (w : WallClock) : (nextYear w).hour = w.hour := rfl
@[simp] theorem nextYear_day (w : WallClock) : (nextYear w).day = w.day := rfl
@[simp] theorem nextYear_month (w : WallClock) : (nextYear w).month = w.month := rfl
@[simp] theorem nextYear_year (w : WallClock) : (nextYear w).year = w.year + 1 := by
  apply BitVec.eq_of_toNat_eq
  simp [nextYear, Config.yearModulus, BitVec.toNat_add]

@[simp] theorem nextMonth_sec (w : WallClock) : (nextMonth w).sec = w.sec := by unfold nextMonth; split <;> rfl
@[simp] theorem nextMonth_min (w : WallClock) : (nextMonth w).min = w.min := by unfold nextMonth; split <;> rfl
@[simp] theorem nextMonth_hour (w : WallClock) : (nextMonth w).hour = w.hour := by unfold nextMonth; split <;> rfl
@[simp] theorem nextMonth_day (w : WallClock) : (nextMonth w).day = w.day := by unfold nextMonth; split <;> rfl

@[simp] theorem nextDay_sec (w : WallClock) : (nextDay w).sec = w.sec := by unfold nextDay; split <;> simp
@[simp] theorem nextDay_min (w : WallClock) : (nextDay w).min = w.min := by unfold nextDay; split <;> simp
@[simp] theorem nextDay_hour (w : WallClock) : (nextDay w).hour = w.hour := by unfold nextDay; split <;> simp

end Sys2Proof.Machine
end

