-- ==== Sys2Proof/Laws/Clock.lean ====
section
/-! SUPPORT. The laws of the calendar and of the cascade (42_rtc.md R140 to R150). -/

namespace Sys2Proof.Machine

theorem validTime_iff {sec min hour day month year : Nat} :
    validTime sec min hour day month year = true ↔
      sec ≤ 59 ∧ min ≤ 59 ∧ hour ≤ 23 ∧ 1 ≤ month ∧ month ≤ 12 ∧ 1 ≤ day ∧ day ≤ dim year month := by
  simp [validTime, and_assoc]

theorem monthLen_bounds {m : Nat} (h1 : 1 ≤ m) (h2 : m ≤ 12) : 28 ≤ monthLen m ∧ monthLen m ≤ 31 := by
  interval_cases m <;> decide

theorem dim_bounds (y : Nat) {m : Nat} (h1 : 1 ≤ m) (h2 : m ≤ 12) : 28 ≤ dim y m ∧ dim y m ≤ 31 := by
  have := monthLen_bounds h1 h2
  unfold dim
  split <;> omega

theorem settable_iff {r : TimeRecord} :
    settable r = true ↔ r.year.toNat ≠ 0 ∧
      validTime r.sec.toNat r.min.toNat r.hour.toNat r.day.toNat r.month.toNat r.year.toNat = true := by
  simp [settable]

/-- Everything the day carry can do to a valid date (R144, R170). -/
theorem nextDay_cases {w : WallClock} (h1 : 1 ≤ w.month.toNat) (h2 : w.month.toNat ≤ 12)
    (hd : w.day.toNat ≤ dim w.year.toNat w.month.toNat) :
    (w.day.toNat < dim w.year.toNat w.month.toNat ∧ nextDay w = { w with day := w.day + 1 } ∧
        (w.day + 1).toNat = w.day.toNat + 1) ∨
    (w.day.toNat = dim w.year.toNat w.month.toNat ∧ w.month.toNat < 12 ∧
        nextDay w = { w with day := 1, month := w.month + 1 } ∧ (w.month + 1).toNat = w.month.toNat + 1) ∨
    (w.day.toNat = dim w.year.toNat w.month.toNat ∧ w.month.toNat = 12 ∧
        nextDay w = { w with day := 1, month := 1, year := w.year + 1 }) := by
  have hb := dim_bounds w.year.toNat h1 h2
  unfold nextDay
  split
  · rename_i hover
    right
    have hde : w.day.toNat = dim w.year.toNat w.month.toNat := by omega
    unfold nextMonth
    split
    · rename_i hm
      simp only at hm
      exact .inr ⟨hde, by omega, by
        have := nextYear_year w
        simp only [nextYear] at this ⊢
        rw [this]⟩
    · rename_i hm
      simp only at hm
      refine .inl ⟨hde, by omega, ?_, ?_⟩
      · rfl
      · rw [BitVec.toNat_add]
        simp
        omega
  · left
    refine ⟨by omega, ?_, ?_⟩
    · rfl
    · rw [BitVec.toNat_add]
      simp
      omega

/-- The day carry keeps a valid date valid (R150). -/
theorem nextDay_valid {w : WallClock} (h1 : 1 ≤ w.month.toNat) (h2 : w.month.toNat ≤ 12)
    (hd : w.day.toNat ≤ dim w.year.toNat w.month.toNat) :
    1 ≤ (nextDay w).month.toNat ∧ (nextDay w).month.toNat ≤ 12 ∧ 1 ≤ (nextDay w).day.toNat ∧
      (nextDay w).day.toNat ≤ dim (nextDay w).year.toNat (nextDay w).month.toNat := by
  rcases nextDay_cases h1 h2 hd with ⟨hlt, he, hn⟩ | ⟨-, hm, he, hn⟩ | ⟨-, -, he⟩
  · simp only [he]
    omega
  · have := dim_bounds w.year.toNat (m := w.month.toNat + 1) (by omega) (by omega)
    simp only [he, hn]
    exact ⟨by omega, by omega, by decide, Nat.le_trans (by decide : (1 : BitVec 5).toNat ≤ 28) this.1⟩
  · have := dim_bounds (w.year + 1).toNat (m := 1) (by omega) (by omega)
    simp only [he]
    exact ⟨by decide, by decide, by decide, Nat.le_trans (by decide : (1 : BitVec 5).toNat ≤ 28) this.1⟩

/-- Everything the cascade can do to a valid time, down to the day carry (R144); `nextDay_cases` says what that does. -/
theorem cascade_cases {w : WallClock} (h1 : w.sec.toNat ≤ 59) (h2 : w.min.toNat ≤ 59) (h3 : w.hour.toNat ≤ 23) :
    (w.sec.toNat < 59 ∧ cascade w = { w with sec := w.sec + 1 }) ∨
    (w.sec.toNat = 59 ∧ w.min.toNat < 59 ∧ cascade w = { w with sec := 0, min := w.min + 1 }) ∨
    (w.sec.toNat = 59 ∧ w.min.toNat = 59 ∧ w.hour.toNat < 23 ∧
      cascade w = { w with sec := 0, min := 0, hour := w.hour + 1 }) ∨
    (w.sec.toNat = 59 ∧ w.min.toNat = 59 ∧ w.hour.toNat = 23 ∧
      cascade w = nextDay { w with sec := 0, min := 0, hour := 0 }) := by
  rcases Nat.lt_or_eq_of_le h1 with hs | hs
  · exact .inl ⟨hs, if_neg (by omega)⟩
  have e1 : cascade w = nextMin { w with sec := 0 } := if_pos (by omega)
  rcases Nat.lt_or_eq_of_le h2 with hm | hm
  · exact .inr (.inl ⟨hs, hm, e1.trans (if_neg (by simp only; omega))⟩)
  have e2 : cascade w = nextHour { w with sec := 0, min := 0 } := e1.trans (if_pos (by simp only; omega))
  rcases Nat.lt_or_eq_of_le h3 with hh | hh
  · exact .inr (.inr (.inl ⟨hs, hm, hh, e2.trans (if_neg (by simp only; omega))⟩))
  · exact .inr (.inr (.inr ⟨hs, hm, hh, e2.trans (if_pos (by simp only; omega))⟩))

end Sys2Proof.Machine
end

