-- ==== Sys2Proof/Laws/Decode.lean ====
section
/-! SUPPORT. The two fields of a command word and their concatenation (30_encoding.md R70), and the fields of a time record
(R76). -/

namespace Sys2Proof

/-- A bit of a command word put together from its two fields. -/
theorem getLsbD_cmd (op : BitVec 4) (arg : Arg) (i : Nat) :
    BitVec.getLsbD (w := 68) (op ++ arg) i = if i < 64 then arg.getLsbD i else op.getLsbD (i - 64) :=
  BitVec.getLsbD_append

@[simp] theorem opOf_append (op : BitVec 4) (arg : Arg) : opOf (op ++ arg) = op := by
  apply BitVec.eq_of_getLsbD_eq
  intro i hi
  rw [opOf, BitVec.getLsbD_extractLsb', getLsbD_cmd]
  simp [hi]

@[simp] theorem argOf_append (op : BitVec 4) (arg : Arg) : argOf (op ++ arg) = arg := by
  apply BitVec.eq_of_getLsbD_eq
  intro i hi
  rw [argOf, BitVec.getLsbD_extractLsb', getLsbD_cmd]
  simp [hi]

theorem append_opOf_argOf (w : CmdWord) : opOf w ++ argOf w = w := by
  apply BitVec.eq_of_getLsbD_eq
  intro i hi
  rw [getLsbD_cmd, opOf, argOf, BitVec.getLsbD_extractLsb', BitVec.getLsbD_extractLsb']
  split
  · simp [*]
  · have : i - 64 < 4 := by omega
    simp [this, show 64 + (i - 64) = i by omega]

/-- The decoder on a word put together from its two fields (R70, R72). -/
theorem decodeCommand_append (op : BitVec 4) (arg : Arg) :
    decodeCommand (op ++ arg) =
      match op.toNat with
      | 0 => formatZ arg .nop
      | 1 => formatCW arg
      | 2 => formatCR arg
      | 3 => formatI arg
      | 4 => formatF arg
      | 5 => formatT arg
      | 6 => formatZ arg .rdtime
      | 7 => formatZ arg .rdlocal
      | 8 => formatZ arg .muxon
      | 9 => formatZ arg .muxoff
      | _ => .error .illegalOp := by
  have hop := opOf_append op arg
  have harg := argOf_append op arg
  generalize (op ++ arg : CmdWord) = w at hop harg ⊢
  subst hop harg
  rfl

/-- The fields of a packed record are the record's (R76). -/
theorem unpack_pack (r : TimeRecord) : TimeRecord.unpack r.pack = r := by
  obtain ⟨sec, min, hour, day, month, year, tz⟩ := r
  simp only [TimeRecord.unpack, TimeRecord.pack, TimeRecord.mk.injEq]
  refine ⟨?_, ?_, ?_, ?_, ?_, ?_, ?_⟩ <;>
    (apply BitVec.eq_of_getLsbD_eq
     intro i hi
     simp only [BitVec.getLsbD_extractLsb', BitVec.getLsbD_append, hi, decide_true, Bool.true_and]
     repeat (first
      | rw [if_pos (by omega)]
      | rw [if_neg (by omega)])
     congr 1)
  all_goals omega

/-- A record of the word's fields packs to the word when its reserved bits are zero (R71, R76). -/
theorem pack_unpack {v : BitVec 64} (h : v.extractLsb' 57 7 = 0) : (TimeRecord.unpack v).pack = v := by
  have hz : ∀ i, i < 7 → v.getLsbD (57 + i) = false := fun i hi => by
    have := congrArg (fun x => x.getLsbD i) h
    simpa [BitVec.getLsbD_extractLsb', hi] using this
  apply BitVec.eq_of_getLsbD_eq
  intro i hi
  rcases Nat.lt_or_ge i 57 with h57 | h57
  · simp only [TimeRecord.unpack, TimeRecord.pack, BitVec.getLsbD_append, BitVec.getLsbD_extractLsb']
    split_ifs
    all_goals first
      | omega
      | (rw [decide_eq_true (by omega), Bool.true_and]
         congr 1
         omega)
  · have h7 : i - 57 < 7 := by omega
    have := hz (i - 57) h7
    rw [show 57 + (i - 57) = i by omega] at this
    rw [this]
    simp only [TimeRecord.unpack, TimeRecord.pack, BitVec.getLsbD_append]
    simp [show ¬ i < 8 by omega, show ¬ i - 8 < 8 by omega, show ¬ i - 8 - 8 < 8 by omega,
      show ¬ i - 8 - 8 - 8 < 8 by omega, show ¬ i - 8 - 8 - 8 - 8 < 8 by omega,
      show ¬ i - 8 - 8 - 8 - 8 - 8 < 16 by omega, show ¬ i - 8 - 8 - 8 - 8 - 8 - 16 < 1 by omega]

end Sys2Proof
end

