-- ==== Sys2Proof/Laws/Memory.lean ====
section
/-! SUPPORT. The laws of the SegmentBuffer: what a read gives after a write, that every write keeps the canonical form
(log 13), and what one cell write of a frame does. -/

namespace Sys2Proof.Machine

@[simp] theorem wfFrom_nil (lo : Nat) : Memory.wfFrom lo [] = true := rfl

@[simp] theorem wfFrom_cons (lo a : Nat) (b : Byte) (m : Memory) :
    Memory.wfFrom lo ((a, b) :: m) = true ↔ (lo ≤ a ∧ a < 6 ∧ b ≠ resetCell) ∧ Memory.wfFrom (a + 1) m = true := by
  simp [Memory.wfFrom, and_assoc]

theorem wfFrom_weaken {lo lo' : Nat} {m : Memory} (h : Memory.wfFrom lo m = true) (hle : lo' ≤ lo) :
    Memory.wfFrom lo' m = true := by
  cases m with
  | nil => rfl
  | cons p m =>
    obtain ⟨⟨h1, h2, h3⟩, h4⟩ := (wfFrom_cons lo p.1 p.2 m).1 h
    exact (wfFrom_cons lo' p.1 p.2 m).2 ⟨⟨by omega, h2, h3⟩, h4⟩

/-- Below the lowest listed address every cell reads as its reset byte. -/
theorem read_below {lo : Nat} {m : Memory} (h : Memory.wfFrom lo m = true) {i : CellIdx} (hi : i.val < lo) :
    m.read i = resetCell := by
  induction m generalizing lo with
  | nil => rfl
  | cons p m ih =>
    obtain ⟨⟨h1, -, -⟩, h4⟩ := (wfFrom_cons lo p.1 p.2 m).1 h
    have : p.1 ≠ i.val := by omega
    simp only [Memory.read, this, if_false]
    exact ih h4 (by omega)

theorem write_wfFrom {lo : Nat} {m : Memory} (h : Memory.wfFrom lo m = true) {i : CellIdx} (hi : lo ≤ i.val)
    (v : Byte) : Memory.wfFrom lo (m.write i v) = true := by
  induction m generalizing lo with
  | nil =>
    unfold Memory.write
    split
    · rfl
    · rename_i hv
      exact (wfFrom_cons _ _ _ _).2 ⟨⟨hi, i.isLt, hv⟩, rfl⟩
  | cons p m ih =>
    obtain ⟨a, b⟩ := p
    obtain ⟨⟨h1, h2, h3⟩, h4⟩ := (wfFrom_cons lo a b m).1 h
    unfold Memory.write
    by_cases hlt : a < i.val
    · simp only [hlt, if_true]
      exact (wfFrom_cons _ _ _ _).2 ⟨⟨h1, h2, h3⟩, ih h4 (by omega)⟩
    · have hrest : Memory.wfFrom (i.val + 1) (if a = i.val then m else (a, b) :: m) = true := by
        split
        · rename_i he; exact he ▸ h4
        · exact (wfFrom_cons _ _ _ _).2 ⟨⟨by omega, h2, h3⟩, h4⟩
      simp only [hlt, if_false]
      split
      · exact wfFrom_weaken hrest (by omega)
      · rename_i hv
        exact (wfFrom_cons _ _ _ _).2 ⟨⟨hi, i.isLt, hv⟩, hrest⟩

/-- Every write keeps the canonical form. -/
theorem write_wf {m : Memory} (h : m.wf = true) (i : CellIdx) (v : Byte) : (m.write i v).wf = true :=
  write_wfFrom h (Nat.zero_le _) v

theorem read_write_from {lo : Nat} {m : Memory} (h : Memory.wfFrom lo m = true) (i j : CellIdx) (v : Byte) :
    (m.write i v).read j = if j = i then v else m.read j := by
  induction m generalizing lo with
  | nil =>
    unfold Memory.write
    by_cases hji : j = i
    · subst hji
      by_cases hv : v = resetCell <;> simp [hv, Memory.read]
    · have : ¬ i.val = j.val := fun h => hji (Fin.ext h.symm)
      by_cases hv : v = resetCell <;> simp [hv, Memory.read, hji, this]
  | cons p m ih =>
    obtain ⟨a, b⟩ := p
    obtain ⟨⟨h1, h2, h3⟩, h4⟩ := (wfFrom_cons lo a b m).1 h
    unfold Memory.write
    by_cases hlt : a < i.val
    · simp only [hlt, if_true, Memory.read, ih h4]
      by_cases haj : a = j.val
      · have : j ≠ i := fun h => by subst h; omega
        simp [haj, this]
      · simp [haj]
    · have hm : ∀ k : CellIdx, k.val < a + 1 → Memory.read m k = resetCell := fun k hk => read_below h4 hk
      simp only [hlt, if_false]
      by_cases hji : j = i
      · subst hji
        by_cases hv : v = resetCell
        · by_cases ha : a = j.val
          · simp [hv, ha, hm j (by omega)]
          · simp [hv, ha, Memory.read, hm j (by omega)]
        · simp [hv, Memory.read]
      · have hne : ¬ i.val = j.val := fun h => hji (Fin.ext h.symm)
        by_cases ha : a = i.val
        · have : ¬ a = j.val := by omega
          by_cases hv : v = resetCell <;> simp [hv, ha, Memory.read, hji, hne]
        · by_cases hv : v = resetCell <;> simp [hv, ha, Memory.read, hji, hne]

/-- A read after a write in canonical memory (R50). -/
theorem read_write {m : Memory} (h : m.wf = true) (i j : CellIdx) (v : Byte) :
    (m.write i v).read j = if j = i then v else m.read j :=
  read_write_from h i j v

@[simp] theorem read_nil (i : CellIdx) : Memory.read [] i = 0x00 := rfl

theorem reset_memory_wf : State.reset.sb.wf = true := rfl

/-- What one cell write of a format command does to the SegmentBuffer (R188). -/
theorem writeNextCell_read {s : State} (h : s.sb.wf = true) (f : FrameWrite) (j : CellIdx) :
    (writeNextCell f s).sb.read j = if j = f.next then f.frame.cell f.next else s.sb.read j :=
  read_write h _ _ _

/-- The cell after cell `i` in the write-out, and its end after cell 5 (R188). -/
theorem advance_of_lt {f : FrameWrite} (h : f.next.val + 1 < 6) :
    f.advance = some ⟨f.frame, ⟨f.next.val + 1, h⟩⟩ := dif_pos h

theorem advance_of_last {f : FrameWrite} (h : f.next.val = 5) : f.advance = none :=
  dif_neg (by omega)

@[simp] theorem frame_cell_zero (m : Memory) : m.frame.cell 0 = m.read 0 := rfl
@[simp] theorem frame_cell_one (m : Memory) : m.frame.cell 1 = m.read 1 := rfl
@[simp] theorem frame_cell_two (m : Memory) : m.frame.cell 2 = m.read 2 := rfl
@[simp] theorem frame_cell_three (m : Memory) : m.frame.cell 3 = m.read 3 := rfl
@[simp] theorem frame_cell_four (m : Memory) : m.frame.cell 4 = m.read 4 := rfl
@[simp] theorem frame_cell_five (m : Memory) : m.frame.cell 5 = m.read 5 := rfl

end Sys2Proof.Machine
end

