-- ==== Sys2Proof/Laws/Exec.lean ====
section
/-! SUPPORT. What each meaning does, one lemma each, and what every instruction has in common: it has a next state, and it
leaves the inputs still to come alone. -/

namespace Sys2Proof.Machine

theorem cellIdx?_eq_some {idx : BitVec 3} (h : idx.toNat < 6) : cellIdx? idx = some ⟨idx.toNat, h⟩ := dif_pos h

theorem cellIdx?_eq_none {idx : BitVec 3} (h : idx.toNat > 5) : cellIdx? idx = none := dif_neg (by omega)

theorem exec_nop (s : State) : exec .nop s = .next (respond 0 s) := rfl

/-- WRCELL on a cell (R105). -/
theorem exec_wrcell {idx : BitVec 3} (h : idx.toNat < 6) (data : Byte) (s : State) :
    exec (.wrcell idx data) s = .next (respond 0 { s with sb := s.sb.write ⟨idx.toNat, h⟩ data }) := by
  simp [exec, execWrcell, cellIdx?_eq_some h]

/-- WRCELL refused (R54, R105). -/
theorem exec_wrcell_refused {idx : BitVec 3} (h : idx.toNat > 5) (data : Byte) (s : State) :
    exec (.wrcell idx data) s = .next (raise .illegalArg s) := by
  simp [exec, execWrcell, cellIdx?_eq_none h]

/-- RDCELL on a cell (R106). -/
theorem exec_rdcell {idx : BitVec 3} (h : idx.toNat < 6) (s : State) :
    exec (.rdcell idx) s = .next (respond ((s.sb.read ⟨idx.toNat, h⟩).setWidth 64) s) := by
  simp [exec, execRdcell, cellIdx?_eq_some h]

/-- RDCELL refused (R54, R106). -/
theorem exec_rdcell_refused {idx : BitVec 3} (h : idx.toNat > 5) (s : State) :
    exec (.rdcell idx) s = .next (raise .illegalArg s) := by
  simp [exec, execRdcell, cellIdx?_eq_none h]

theorem exec_fmtint (v : BitVec 64) (s : State) :
    exec (.fmtint v) s = .next (startFormat (intFrame (signedOperand v)) s) := rfl

theorem exec_fmtflt (v : BitVec 32) (s : State) : exec (.fmtflt v) s = .next (startFormat (floatFrame v) s) := rfl

/-- SETTIME of an accepted record (R147). -/
theorem exec_settime {r : TimeRecord} (h : settable r = true) (s : State) :
    exec (.settime r) s = .next (respond 0 { s with wall := wallOf r, tz := r.tz }) := by
  simp [exec, execSettime, h]

/-- SETTIME of a refused record (R147). -/
theorem exec_settime_refused {r : TimeRecord} (h : settable r = false) (s : State) :
    exec (.settime r) s = .next (raise .illegalArg s) := by
  simp [exec, execSettime, h]

theorem exec_rdtime (s : State) : exec .rdtime s = .next (respond (recordOf s.wall s.tz).pack s) := rfl

theorem exec_rdlocal (s : State) :
    exec .rdlocal s = .next (respond (recordOf (localClock s.wall s.tz) s.tz).pack s) := rfl

theorem exec_muxon (s : State) : exec .muxon s = .next (respond 0 { s with muxOn := true }) := rfl

theorem exec_muxoff (s : State) :
    exec .muxoff s = .next (respond 0 { s with muxOn := false, colOut := 0b000000, segOut := 0x00 }) := rfl

theorem exec_tick1hz (s : State) :
    exec .tick1hz s = .next { s with wall := cascade s.wall, tz := dstEvaluate (cascade s.wall) s.tz } := rfl

/-- CURSOR after the advance names a cell, whatever it named before (R25, U8). -/
theorem cursor_advance_toNat (n : Nat) : (BitVec.ofNat 3 (n % 6)).toNat = n % 6 := by
  rw [BitVec.toNat_ofNat]
  omega

/-- TICKMUX while the multiplexer runs (R120). -/
theorem exec_tickmux_running {s : State} (h : s.muxOn = true) {c : CellIdx} (hc : c.val = (s.cursor.toNat + 1) % 6) :
    exec .tickmux s =
      .next { s with cursor := BitVec.ofNat 3 c.val, segOut := s.sb.read c, colOut := 1#6 <<< c.val } := by
  have h8 : c.val % 8 = c.val := by omega
  have hcell : (⟨c.val % 6, Nat.mod_lt _ (by decide)⟩ : CellIdx) = c := Fin.ext (by simp)
  simp [exec, execTickmux, h, muxActivate, muxDrive, muxAdvance, muxDeactivate, cursorCell, oneHot, Config.nCells,
    hc.symm, h8]
  exact congrArg _ hcell

/-- TICKMUX while it is suspended (R122). -/
theorem exec_tickmux_suspended {s : State} (h : s.muxOn = false) : exec .tickmux s = .next s := by
  simp [exec, execTickmux, h]

/-- Every instruction has a next state: no meaning of this block faults or refuses (R230, R234). -/
theorem exec_next (i : Instr) (s : State) : ∃ t, exec i s = .next t := by
  cases i <;> simp only [exec, execNop, execWrcell, execRdcell, execFmtint, execFmtflt, execSettime, execRdtime,
    execRdlocal, execMuxon, execMuxoff, execTick1hz, execTickmux]
  case wrcell idx data => cases cellIdx? idx <;> exact ⟨_, rfl⟩
  case rdcell idx => cases cellIdx? idx <;> exact ⟨_, rfl⟩
  case settime r => cases settable r <;> exact ⟨_, rfl⟩
  case tickmux => cases s.muxOn <;> exact ⟨_, rfl⟩
  all_goals exact ⟨_, rfl⟩

/-- No instruction touches the inputs still to come or the reset line. -/
theorem exec_keeps_inputs {i : Instr} {s t : State} (h : exec i s = .next t) :
    t.cmds = s.cmds ∧ t.schedule = s.schedule ∧ t.rstN = s.rstN := by
  cases i <;> simp only [exec, execNop, execWrcell, execRdcell, execFmtint, execFmtflt, execSettime, execRdtime,
    execRdlocal, execMuxon, execMuxoff, execTick1hz, execTickmux] at h
  case wrcell idx data => cases hc : cellIdx? idx <;> simp only [hc] at h <;> cases h <;> exact ⟨rfl, rfl, rfl⟩
  case rdcell idx => cases hc : cellIdx? idx <;> simp only [hc] at h <;> cases h <;> exact ⟨rfl, rfl, rfl⟩
  case settime r => split at h <;> cases h <;> exact ⟨rfl, rfl, rfl⟩
  case tickmux => split at h <;> cases h <;> exact ⟨rfl, rfl, rfl⟩
  all_goals (cases h; exact ⟨rfl, rfl, rfl⟩)

@[simp] theorem execAll_nil (s : State) : execAll [] s = .next s := rfl

theorem execAll_cons {i : Instr} {s t : State} (h : exec i s = .next t) (is : List Instr) :
    execAll (i :: is) s = execAll is t := by
  simp [execAll, h]

/-- A list of instructions run in two parts. -/
theorem execAll_append {as bs : List Instr} {s t : State} (h : execAll as s = .next t) :
    execAll (as ++ bs) s = execAll bs t := by
  induction as generalizing s with
  | nil => cases h; rfl
  | cons i is ih =>
    obtain ⟨u, hu⟩ := exec_next i s
    rw [execAll_cons hu] at h
    rw [List.cons_append, execAll_cons hu]
    exact ih h

end Sys2Proof.Machine
end

