-- ==== Sys2Proof/Laws/Format.lean ====
section
/-! SUPPORT. The laws of the pieces the two formatters share (44_fmt_int.md R180 to R185; 45_fmt_float.md R207, R208): which
byte of a list each cell of its frame shows, the digits of a number, and the searches for a decade. -/

namespace Sys2Proof.Machine

/-- Cell i of the frame of a list is entry i, blank past its end. -/
theorem frameOf_cell (l : List Byte) (i : CellIdx) : (frameOf l).cell i = l.getD i.val blank := by
  fin_cases i <;> rfl

@[simp] theorem length_digitsOf (q k : Nat) : (digitsOf q k).length = k := by simp [digitsOf]

theorem getElem?_digitsOf {q k i : Nat} (h : i < k) : (digitsOf q k)[i]? = some (digitAt q (k - 1 - i)) := by
  simp [digitsOf, h]

@[simp] theorem length_digitGlyphs (p : Nat) (ds : List (Fin 10)) : (digitGlyphs p ds).length = ds.length := by
  simp [digitGlyphs]

/-- Each digit is drawn by its glyph, and the decimal point is lit on one digit only (R102). -/
theorem getElem?_digitGlyphs (p : Nat) (ds : List (Fin 10)) (i : Nat) :
    (digitGlyphs p ds)[i]? = ds[i]?.map fun d => dig d ||| (if i = p then dp else 0x00) := by
  simp only [digitGlyphs, List.getElem?_mapIdx]
  cases ds[i]? with
  | none => rfl
  | some d => by_cases h : i = p <;> simp [h]

/-- The exponent cells are three, or four when the exponent is below -9 (R185). -/
theorem length_expCells (e : Int) : (expCells e).length = if e ≤ -10 then 4 else 3 := by
  unfold expCells
  simp only
  split_ifs <;> first | rfl | omega

/-- The downward search gives the decade of every magnitude in its range (R183). -/
theorem decadeFrom_spec {mag : Nat} (h1 : 1 ≤ mag) {k : Nat} (h : mag < 10 ^ (k + 1)) :
    10 ^ decadeFrom mag k ≤ mag ∧ mag < 10 ^ (decadeFrom mag k + 1) ∧ decadeFrom mag k ≤ k := by
  induction k with
  | zero => exact ⟨h1, h, Nat.le_refl _⟩
  | succ k ih =>
    rw [decadeFrom]
    split
    · rename_i hle; exact ⟨hle, h, Nat.le_refl _⟩
    · rename_i hlt
      obtain ⟨a, b, c⟩ := ih (Nat.lt_of_not_le hlt)
      exact ⟨a, b, Nat.le_succ_of_le c⟩

theorem decade_spec {mag : Nat} (h1 : 1 ≤ mag) (h : mag < 10 ^ 19) :
    10 ^ decade mag ≤ mag ∧ mag < 10 ^ (decade mag + 1) ∧ decade mag ≤ 18 :=
  decadeFrom_spec h1 h

/-- The comparison with a power of ten, as rational numbers (R207). -/
theorem geTenPow_iff {v : Frac} (hd : 0 < v.den) (p : Int) :
    v.geTenPow p = true ↔ (10 : ℚ) ^ p ≤ v.toRat := by
  have hd' : (0 : ℚ) < v.den := by exact_mod_cast hd
  rw [Frac.geTenPow, decide_eq_true_eq, Frac.toRat, le_div_iff₀ hd', Frac.divPow10]
  obtain ⟨n, rfl | rfl⟩ := Int.eq_nat_or_neg p
  · simp only [Int.toNat_natCast, Int.toNat_neg_natCast, pow_zero, mul_one, zpow_natCast]
    rw [← Nat.cast_le (α := ℚ)]
    push_cast
    rw [mul_comm]
  · simp only [neg_neg, Int.toNat_natCast, Int.toNat_neg_natCast, pow_zero, mul_one, zpow_neg, zpow_natCast]
    rw [← Nat.cast_le (α := ℚ)]
    push_cast
    rw [inv_mul_le_iff₀ (by positivity), mul_comm]

/-- The downward search gives the order of every fraction in its range (R207). -/
theorem orderFrom_spec {v : Frac} (hd : 0 < v.den) (k : Nat) {p : Int} (hhi : v.toRat < (10 : ℚ) ^ (p + 1))
    (hlo : (10 : ℚ) ^ (p - k) ≤ v.toRat) :
    (10 : ℚ) ^ orderFrom v k p ≤ v.toRat ∧ v.toRat < (10 : ℚ) ^ (orderFrom v k p + 1) ∧
      p - k ≤ orderFrom v k p ∧ orderFrom v k p ≤ p := by
  induction k generalizing p with
  | zero => exact ⟨by simpa [orderFrom] using hlo, hhi, by simp [orderFrom], Int.le_refl _⟩
  | succ k ih =>
    rw [orderFrom]
    split
    · rename_i h
      exact ⟨(geTenPow_iff hd p).1 h, hhi, by omega, Int.le_refl _⟩
    · rename_i h
      have hlt : v.toRat < (10 : ℚ) ^ (p - 1 + 1) := by
        rw [sub_add_cancel]
        exact not_le.1 fun hle => h ((geTenPow_iff hd p).2 hle)
      obtain ⟨a, b, c, d⟩ := ih hlt (by rwa [show p - 1 - (k : ℤ) = p - ((k + 1 : ℕ) : ℤ) by push_cast; ring])
      exact ⟨a, b, by push_cast; omega, by omega⟩

/-- Adding the bias, as rational arithmetic (R208). -/
theorem addEps_spec {w : Frac} (hd : 0 < w.den) :
    0 < w.addEps.den ∧ w.addEps.toRat = w.toRat + 1 / 1000000 := by
  have hd' : (0 : ℚ) < w.den := by exact_mod_cast hd
  constructor
  · simpa [Frac.addEps, Config.fmtEpsDen] using hd
  · simp only [Frac.toRat, Frac.addEps, Config.fmtEpsDen, Config.fmtEpsNum]
    push_cast
    field_simp

/-- The renormalisation by a decade, as rational arithmetic (R208). -/
theorem renormalise_spec {W : Frac} (hd : 0 < W.den) :
    (W.num ≥ 10 * W.den ↔ 10 ≤ W.toRat) ∧ (⟨W.num, W.den * 10⟩ : Frac).toRat = W.toRat / 10 := by
  have hd' : (0 : ℚ) < W.den := by exact_mod_cast hd
  constructor
  · rw [Frac.toRat, le_div_iff₀ hd', ge_iff_le, ← Nat.cast_le (α := ℚ)]
    push_cast
    rfl
  · simp only [Frac.toRat]
    push_cast
    rw [div_div]

/-- The bias of R208 as rational arithmetic. -/
theorem bias_spec {w : Frac} (hd : 0 < w.den) (q : Int) :
    0 < (bias w q).1.den ∧
    (10 ≤ w.toRat + 1 / 1000000 → (bias w q).1.toRat = (w.toRat + 1 / 1000000) / 10 ∧ (bias w q).2 = q + 1) ∧
    (w.toRat + 1 / 1000000 < 10 → (bias w q).1.toRat = w.toRat + 1 / 1000000 ∧ (bias w q).2 = q) := by
  obtain ⟨hden, heps⟩ := addEps_spec hd
  rw [← heps, bias]
  generalize w.addEps = W at hden
  obtain ⟨hcmp, hdiv⟩ := renormalise_spec hden
  split
  · rename_i h
    exact ⟨Nat.mul_pos hden (by decide), fun _ => ⟨hdiv, rfl⟩, fun hlt => absurd (hcmp.1 h) (not_le.2 hlt)⟩
  · rename_i h
    exact ⟨hden, fun hle => absurd (hcmp.2 hle) h, fun _ => ⟨rfl, rfl⟩⟩

end Sys2Proof.Machine
end

