-- ==== Sys2Proof/Laws/PerInstr.lean ====
section
/-! SUPPORT. The family TableRow: the word of every instruction lies in its row of spec/opcode_table.json, with the row's
match under its mask and the row's must-be-zero bits zero (30_encoding.md R71, R72, R77). The rows are copied from the table,
not computed from the encoder. -/

namespace Sys2Proof.Laws

/-- A row of the opcode table: match, mask and must_be_zero. -/
structure Row where
  pattern : Nat
  mask : Nat
  zeros : Nat
deriving DecidableEq, Repr

/-- The number on a port word. -/
def portNat : PortWord → Nat
  | .cmd w => w.toNat
  | .evt e => e.toNat

/-- The row of each constructor in spec/opcode_table.json. -/
def rowOf : Instr → Row
  | .nop => ⟨0x00000000000000000, 0xF0000000000000000, 0x0FFFFFFFFFFFFFFFF⟩
  | .wrcell _ _ => ⟨0x10000000000000000, 0xF0000000000000000, 0x0FFFFFFFFFFFFF800⟩
  | .rdcell _ => ⟨0x20000000000000000, 0xF0000000000000000, 0x0FFFFFFFFFFFFF8FF⟩
  | .fmtint _ => ⟨0x30000000000000000, 0xF0000000000000000, 0x00000000000000000⟩
  | .fmtflt _ => ⟨0x40000000000000000, 0xF0000000000000000, 0x0FFFFFFFF00000000⟩
  | .settime _ => ⟨0x50000000000000000, 0xF0000000000000000, 0x0FE00000000000000⟩
  | .rdtime => ⟨0x60000000000000000, 0xF0000000000000000, 0x0FFFFFFFFFFFFFFFF⟩
  | .rdlocal => ⟨0x70000000000000000, 0xF0000000000000000, 0x0FFFFFFFFFFFFFFFF⟩
  | .muxon => ⟨0x80000000000000000, 0xF0000000000000000, 0x0FFFFFFFFFFFFFFFF⟩
  | .muxoff => ⟨0x90000000000000000, 0xF0000000000000000, 0x0FFFFFFFFFFFFFFFF⟩
  | .tick1hz => ⟨0x1, 0x1, 0x0⟩
  | .tickmux => ⟨0x2, 0x2, 0x0⟩

/-- The word of `i` lies in the row of `i`. -/
def TableRow.Statement (i : Instr) : Prop :=
  portNat (encode i) &&& (rowOf i).mask = (rowOf i).pattern ∧ portNat (encode i) &&& (rowOf i).zeros = 0

theorem TableRow.nop : TableRow.Statement .nop := ⟨by decide, by decide⟩
theorem TableRow.rdtime : TableRow.Statement .rdtime := ⟨by decide, by decide⟩
theorem TableRow.rdlocal : TableRow.Statement .rdlocal := ⟨by decide, by decide⟩
theorem TableRow.muxon : TableRow.Statement .muxon := ⟨by decide, by decide⟩
theorem TableRow.muxoff : TableRow.Statement .muxoff := ⟨by decide, by decide⟩
theorem TableRow.tick1hz : TableRow.Statement .tick1hz := ⟨by decide, by decide⟩
theorem TableRow.tickmux : TableRow.Statement .tickmux := ⟨by decide, by decide⟩

/-- The test of a row on a command word, as a test of its two fields: the mask takes the opcode, the must-be-zero bits the
argument. -/
theorem row_of_fields (op : BitVec 4) (arg zeros : BitVec 64) (hz : arg &&& zeros = 0) :
    portNat (cmdWord op arg) &&& 0xF0000000000000000 = op.toNat <<< 64 ∧
      portNat (cmdWord op arg) &&& zeros.toNat = 0 := by
  have hw : portNat (cmdWord op arg) = op.toNat <<< 64 ||| arg.toNat := BitVec.toNat_append op arg
  have h1 : (arg.toNat &&& 0xF0000000000000000) = 0 := by
    apply Nat.eq_of_testBit_eq
    intro k
    rw [Nat.testBit_and, show (0xF0000000000000000 : Nat) = 15 <<< 64 from rfl, Nat.testBit_shiftLeft]
    by_cases hk : 64 ≤ k
    · simp [Nat.testBit_lt_two_pow (Nat.lt_of_lt_of_le arg.isLt (Nat.pow_le_pow_right (by decide) hk))]
    · simp [hk]
  have h2 : op.toNat <<< 64 &&& 0xF0000000000000000 = op.toNat <<< 64 := by
    rw [show (0xF0000000000000000 : Nat) = 15 <<< 64 from rfl, ← Nat.shiftLeft_and_distrib]
    have : op.toNat &&& 15 = op.toNat := by
      rw [show (15 : Nat) = 2 ^ 4 - 1 by decide, Nat.and_two_pow_sub_one_eq_mod]
      exact Nat.mod_eq_of_lt op.isLt
    rw [this]
  have h3 : op.toNat <<< 64 &&& zeros.toNat = 0 := by
    apply Nat.eq_of_testBit_eq
    intro k
    rw [Nat.testBit_and, Nat.testBit_shiftLeft]
    by_cases hk : 64 ≤ k
    · simp [Nat.testBit_lt_two_pow (Nat.lt_of_lt_of_le zeros.isLt (Nat.pow_le_pow_right (by decide) hk))]
    · simp [hk]
  have h4 : arg.toNat &&& zeros.toNat = 0 := by simpa using congrArg BitVec.toNat hz
  rw [hw, Nat.and_or_distrib_right, Nat.and_or_distrib_right, h1, h2, h3, h4]
  simp

/-- The masks of the table split at the fields they mask. -/
theorem append_and_append {n m : Nat} (a c : BitVec n) (b d : BitVec m) :
    (a ++ b) &&& (c ++ d) = (a &&& c) ++ (b &&& d) := by
  apply BitVec.eq_of_getLsbD_eq
  intro i hi
  simp only [BitVec.getLsbD_and, BitVec.getLsbD_append]
  split <;> rfl

theorem TableRow.fmtint (ival : BitVec 64) : TableRow.Statement (.fmtint ival) :=
  row_of_fields 0x3 ival 0 (by simp)

theorem TableRow.fmtflt (fval : BitVec 32) : TableRow.Statement (.fmtflt fval) := by
  refine row_of_fields 0x4 (0#32 ++ fval) 0xFFFFFFFF00000000 ?_
  rw [show (0xFFFFFFFF00000000 : BitVec 64) = BitVec.allOnes 32 ++ 0#32 by decide, append_and_append]
  simp

theorem TableRow.wrcell (idx : BitVec 3) (data : Byte) : TableRow.Statement (.wrcell idx data) := by
  refine row_of_fields 0x1 (0#53 ++ idx ++ data) 0xFFFFFFFFFFFFF800 ?_
  rw [show (0xFFFFFFFFFFFFF800 : BitVec 64) = BitVec.allOnes 53 ++ 0#3 ++ 0#8 by decide, append_and_append,
    append_and_append]
  simp

theorem TableRow.rdcell (idx : BitVec 3) : TableRow.Statement (.rdcell idx) := by
  refine row_of_fields 0x2 (0#53 ++ idx ++ 0#8) 0xFFFFFFFFFFFFF8FF ?_
  rw [show (0xFFFFFFFFFFFFF8FF : BitVec 64) = BitVec.allOnes 53 ++ 0#3 ++ BitVec.allOnes 8 by decide,
    append_and_append, append_and_append]
  simp

theorem TableRow.settime (r : TimeRecord) : TableRow.Statement (.settime r) := by
  refine row_of_fields 0x5 r.pack 0xFE00000000000000 ?_
  rw [show (0xFE00000000000000 : BitVec 64) =
    BitVec.allOnes 7 ++ 0#1 ++ 0#16 ++ 0#8 ++ 0#8 ++ 0#8 ++ 0#8 ++ 0#8 by decide]
  unfold TimeRecord.pack
  rw [append_and_append, append_and_append, append_and_append, append_and_append,
    append_and_append, append_and_append, append_and_append]
  simp

end Sys2Proof.Laws
end

