-- ==== Sys2Proof/Laws/Step.lean ====
section
/-! SUPPORT. What a step does, slot by slot, once and for all (20_memory.md R58). -/

namespace Sys2Proof.Machine

theorem step_of_schedule {s : State} {slot : Slot} {rest : List Slot} (h : s.schedule = slot :: rest) :
    step s = runSlot slot (afterSlot rest s) := by
  simp [step, h]

theorem step_idle {s : State} (h : s.schedule = []) : step s = runSlot .command (afterSlot [] s) := by
  simp [step, h, idleSlot]

/-- A turn of the command agent while a format command is in progress (R188, R267). -/
theorem runSlot_busy {s : State} {f : FrameWrite} (hr : s.rstN = true) (hf : s.flight = some f) :
    runSlot .command s = .next (writeNextCell f s) := by
  simp [runSlot, commandTurn, hr, hf]

/-- A turn of the command agent with nothing to do. -/
theorem runSlot_idle {s : State} (hr : s.rstN = true) (hf : s.flight = none) (hc : s.cmds = []) :
    runSlot .command s = .next s := by
  simp [runSlot, commandTurn, hr, hf, hc]

/-- A turn of the command agent that takes the host's next word (R79). -/
theorem runSlot_accept {s : State} {w : CmdWord} {ws : List CmdWord} (hr : s.rstN = true) (hf : s.flight = none)
    (hc : s.cmds = w :: ws) : runSlot .command s = commandStep w { s with cmds := ws } := by
  simp [runSlot, commandTurn, hr, hf, hc]

theorem runSlot_events {s : State} (hr : s.rstN = true) (e : EvtWord) : runSlot (.events e) s = eventTurn e s := by
  simp [runSlot, hr]

theorem runSlot_underReset {s : State} (hr : s.rstN = false) {slot : Slot} (h : slot ≠ .rst true) :
    runSlot slot s = .next (holdReset s) := by
  cases slot with
  | command => simp [runSlot, hr]
  | events e => simp [runSlot, hr]
  | rst level => cases level <;> simp_all [runSlot, resetTurn]

theorem commandStep_ok {w : CmdWord} {i : Instr} (h : decodeCommand w = .ok i) (s : State) :
    commandStep w s = exec i s := by
  simp [commandStep, h]

theorem commandStep_error {w : CmdWord} {r : Reject} (h : decodeCommand w = .error r) (s : State) :
    commandStep w s = .next (raise r s) := by
  simp [commandStep, h]

/-- The four event words, in the block's order (R77, R235). -/
theorem eventTurn_none (s : State) : eventTurn 0b00 s = .next s := rfl
theorem eventTurn_second (s : State) : eventTurn 0b01 s = exec .tick1hz s := rfl
theorem eventTurn_refresh (s : State) : eventTurn 0b10 s = exec .tickmux s := rfl
theorem eventTurn_both (s : State) :
    eventTurn 0b11 s = exec .tick1hz { s with schedule := .events 0b10 :: s.schedule } := rfl

theorem eventWord_cases (e : EvtWord) : e = 0b00 ∨ e = 0b01 ∨ e = 0b10 ∨ e = 0b11 := by
  revert e
  decide

/-- Everything a slot can do: run an instruction at a state that differs at most in the inputs still to come, refuse a
command, write the next cell of a format command, do nothing, or drive the reset. -/
theorem runSlot_cases {slot : Slot} {s t : State} (h : runSlot slot s = .next t) :
    (∃ i cmds schedule, exec i { s with cmds := cmds, schedule := schedule } = .next t) ∨
    (∃ r cmds, t = raise r { s with cmds := cmds }) ∨
    (∃ f, s.flight = some f ∧ t = writeNextCell f s) ∨ t = s ∨
    t = holdReset s ∨ t = { holdReset s with rstN := true } := by
  cases slot with
  | rst level =>
    simp only [runSlot, resetTurn] at h
    split at h
    · split at h <;> cases h <;> simp
    · cases h; simp
  | events e =>
    simp only [runSlot] at h
    split at h
    · rcases eventWord_cases e with rfl | rfl | rfl | rfl
      · rw [eventTurn_none] at h; cases h; simp
      · rw [eventTurn_second] at h; exact .inl ⟨_, _, _, h⟩
      · rw [eventTurn_refresh] at h; exact .inl ⟨_, _, _, h⟩
      · rw [eventTurn_both] at h; exact .inl ⟨_, s.cmds, _, h⟩
    · cases h; simp
  | command =>
    simp only [runSlot] at h
    split at h
    · rename_i hr
      cases hf : s.flight with
      | some f =>
        simp only [commandTurn, hf] at h
        cases h
        exact .inr (.inr (.inl ⟨f, rfl, rfl⟩))
      | none =>
        cases hc : s.cmds with
        | nil => simp only [commandTurn, hf, hc] at h; cases h; simp
        | cons w ws =>
          simp only [commandTurn, hf, hc] at h
          cases hd : decodeCommand w with
          | ok i => rw [commandStep_ok hd] at h; exact .inl ⟨i, ws, s.schedule, h⟩
          | error r => rw [commandStep_error hd] at h; cases h; exact .inr (.inl ⟨r, ws, rfl⟩)
    · cases h; simp

/-- Every step is a slot run at the state without the slot and without the last response. -/
theorem step_cases (s : State) : ∃ slot rest, step s = runSlot slot (afterSlot rest s) := by
  cases h : s.schedule with
  | nil => exact ⟨_, _, step_idle h⟩
  | cons slot rest => exact ⟨_, _, step_of_schedule h⟩

@[simp] theorem runSteps_zero (s : State) : runSteps 0 s = .next s := rfl

theorem runSteps_succ {s t : State} (h : step s = .next t) (k : Nat) : runSteps (k + 1) s = runSteps k t := by
  simp [runSteps, h]

/-- A run of `j + k` steps in two parts. -/
theorem runSteps_add {s t : State} {j : Nat} (h : runSteps j s = .next t) (k : Nat) :
    runSteps (j + k) s = runSteps k t := by
  induction j generalizing s with
  | zero => cases h; simp
  | succ j ih =>
    rw [runSteps] at h
    rw [show j + 1 + k = (j + k) + 1 by omega]
    split at h
    · rename_i u hu
      rw [runSteps_succ hu]
      exact ih h
    · cases h
    · cases h

/-- A run of the block is a run of the machine the host takes. -/
theorem runSteps_eq_core_run (k : Nat) (s : State) : runSteps k s = Sys2Proof.core.run k s := by
  induction k generalizing s with
  | zero => rfl
  | succ k ih =>
    have hcore : Sys2Proof.core.step s = step s := rfl
    unfold runSteps
    simp only [Host.Core.run, hcore]
    cases step s with
    | next t => exact ih t
    | fault r => rfl
    | refused r => rfl

end Sys2Proof.Machine
end

