-- ==== Sys2Proof/Tests/Slice0.lean ====
section
/-! SUPPORT. Tests: ill-formed terms the well-formedness check refuses; words written out from the spec's encodings; one-step
tests whose expected results are the vectors of 95_test_vectors.md; and, for every obligation with hypotheses, a
concrete state that meets them. -/

namespace Sys2Proof.Tests

open Sys2Proof.Machine

/-! ## Helpers -/

/-- The next state of an outcome. -/
def nextOf (o : Host.Outcome State Fault Refusal) : Option State :=
  match o with
  | .next t => some t
  | _ => none

/-- One value read off the next state. -/
def seen {α : Type} (f : State → α) (o : Host.Outcome State Fault Refusal) : Option α := (nextOf o).map f

/-- The reset state with one command word offered. -/
def offered (w : CmdWord) : State := { State.reset with cmds := [w] }

/-- The reset state with one command word offered and the command agent's turn on the schedule. -/
def scheduled (w : CmdWord) : State := { State.reset with cmds := [w], schedule := [.command] }

/-- The SegmentBuffer 40 06 5B 4F 66 6D of sections 2.2 and 2.3 of the vectors. -/
def drawnCells : Memory := [(0, 0x40), (1, 0x06), (2, 0x5B), (3, 0x4F), (4, 0x66), (5, 0x6D)]

/-- The state of section 2.3 with the multiplexer running at a cursor, its cell lit. -/
def running (cursor : BitVec 3) : State :=
  { State.reset with
    sb := drawnCells
    cursor := cursor
    muxOn := true
    segOut := drawnCells.read ⟨cursor.toNat % 6, Nat.mod_lt _ (by decide)⟩
    colOut := oneHot cursor }

/-- The reset state with the clock set to a time record. -/
def clockAt (v : BitVec 64) : State :=
  { State.reset with wall := wallOf (TimeRecord.unpack v), tz := (TimeRecord.unpack v).tz }

/-- The time record of the clock, as RDTIME responds it. -/
def recordNow (s : State) : BitVec 64 := (recordOf s.wall s.tz).pack

/-- A format write-out of the frame 1 2 3 4 5 6 with a cell to write next. -/
def writingOut (next : CellIdx) : State :=
  { State.reset with flight := some ⟨⟨1, 2, 3, 4, 5, 6⟩, next⟩, schedule := [.command] }

/-! ## Well-formedness: a term each check refuses (R54, R76, R147, R149) -/

theorem test_wf_wrcell_index : Instr.wf (.wrcell 6 0x00) = false := by decide
theorem test_wf_rdcell_index : Instr.wf (.rdcell 7) = false := by decide
theorem test_wf_settime_sec : Instr.wf (.settime ⟨60, 0, 0, 1, 1, 2024, 0⟩) = false := by decide
theorem test_wf_settime_min : Instr.wf (.settime ⟨0, 60, 0, 1, 1, 2024, 0⟩) = false := by decide
theorem test_wf_settime_hour : Instr.wf (.settime ⟨0, 0, 24, 1, 1, 2024, 0⟩) = false := by decide
theorem test_wf_settime_day_zero : Instr.wf (.settime ⟨0, 0, 0, 0, 1, 2024, 0⟩) = false := by decide
theorem test_wf_settime_day_high : Instr.wf (.settime ⟨0, 0, 0, 30, 2, 2024, 0⟩) = false := by decide
theorem test_wf_settime_month_zero : Instr.wf (.settime ⟨0, 0, 0, 1, 0, 2024, 0⟩) = false := by decide
theorem test_wf_settime_month_high : Instr.wf (.settime ⟨0, 0, 0, 1, 13, 2024, 0⟩) = false := by decide
theorem test_wf_settime_year_zero : Instr.wf (.settime ⟨0, 0, 0, 1, 1, 0, 0⟩) = false := by decide
theorem test_wf_accepts : Instr.wf (.wrcell 5 0xFF) = true ∧ Instr.wf (.settime ⟨0, 0, 12, 29, 2, 2024, 1⟩) = true := by
  decide

/-! ## Decoding: words written out from R70 to R77 and the examples of the rules -/

theorem test_decode_nop : decodeTableWord 72 0x00000000000000000 = some .nop := by decide
theorem test_decode_wrcell : decodeTableWord 72 0x1000000000000035B = some (.wrcell 3 0x5B) := by decide
theorem test_decode_rdcell : decodeTableWord 72 0x20000000000000500 = some (.rdcell 5) := by decide
theorem test_decode_fmtint : decodeTableWord 72 0x3FFFFFFFFFFFFCFC7 = some (.fmtint (BitVec.ofInt 64 (-12345))) := by
  decide
theorem test_decode_fmtflt : decodeTableWord 72 0x40000000042F6E666 = some (.fmtflt 0x42F6E666) := by decide
theorem test_decode_settime :
    decodeTableWord 72 0x50107E8021D0C0B3A = some (.settime ⟨58, 11, 12, 29, 2, 2024, 1⟩) := by decide
theorem test_decode_rdtime : decodeTableWord 72 0x60000000000000000 = some .rdtime := by decide
theorem test_decode_rdlocal : decodeTableWord 72 0x70000000000000000 = some .rdlocal := by decide
theorem test_decode_muxon : decodeTableWord 72 0x80000000000000000 = some .muxon := by decide
theorem test_decode_muxoff : decodeTableWord 72 0x90000000000000000 = some .muxoff := by decide
theorem test_decode_tick1hz : decodeTableWord 8 0b01 = some .tick1hz := by decide
theorem test_decode_tickmux : decodeTableWord 8 0b10 = some .tickmux := by decide
theorem test_decode_both_events : decode (.evt 0b11) = .ok [.tick1hz, .tickmux] := by rfl

/-- Section 2.2: reserved opcodes and reserved bits. -/
theorem test_decode_reserved_opcode :
    decodeCommand 0xA0000000000000000 = .error .illegalOp ∧ decodeCommand 0xF123456789ABCDEF0 = .error .illegalOp := by
  exact ⟨rfl, rfl⟩
theorem test_decode_reserved_bits :
    decodeCommand 0x00000000000000001 = .error .illegalArg ∧ decodeCommand 0x10000000000000800 = .error .illegalArg ∧
    decodeCommand 0x20000000000000501 = .error .illegalArg ∧ decodeCommand 0x40000000142F6E666 = .error .illegalArg ∧
    decodeCommand 0x50207E8031F003B3A = .error .illegalArg ∧ decodeCommand 0x78000000000000000 = .error .illegalArg := by
  exact ⟨rfl, rfl, rfl, rfl, rfl, rfl⟩

/-! ## One-step tests; the expected values are the vectors of 95_test_vectors.md -/

theorem test_nop : seen State.rsp (step (offered 0x00000000000000000)) = some (some ⟨.ok, 0⟩) := by decide

/-- Section 2.1. -/
theorem test_wrcell : seen State.sb (step (offered 0x1000000000000035B)) = some [(3, 0x5B)] := by decide
/-- Section 2.2: index 6 does not alias a cell. -/
theorem test_wrcell_refused :
    seen (fun t => (t.sb, t.rsp)) (step { offered 0x100000000000006FF with sb := drawnCells }) =
      some (drawnCells, some ⟨.illegalArg, 0⟩) := by decide

/-- Section 2.1. -/
theorem test_rdcell :
    seen State.rsp (step { offered 0x20000000000000500 with sb := [(0, 0xFF), (3, 0x5B), (5, 0x80)] }) =
      some (some ⟨.ok, 0x80⟩) := by decide
theorem test_rdcell_blank : seen State.rsp (step (offered 0x20000000000000000)) = some (some ⟨.ok, 0⟩) := by decide

/-- Section 2.7: -12345, and 9995000 whose rounding carries. -/
theorem test_fmtint_fixed :
    seen State.flight (step (offered 0x3FFFFFFFFFFFFCFC7)) =
      some (some ⟨⟨0x40, 0x06, 0x5B, 0x4F, 0x66, 0x6D⟩, 0⟩) := by decide
theorem test_fmtint_carry :
    seen State.flight (step (offered 0x300000000009882F8)) =
      some (some ⟨⟨0x86, 0x3F, 0x3F, 0x79, 0x07, 0x00⟩, 0⟩) := by decide

/-- Section 2.8: 123.45, and the smallest negative subnormal with its four-cell exponent. -/
theorem test_fmtflt_fixed :
    seen State.flight (step (offered 0x40000000042F6E666)) =
      some (some ⟨⟨0x06, 0x5B, 0xCF, 0x66, 0x6D, 0x3F⟩, 0⟩) := by decide
theorem test_fmtflt_scientific :
    seen State.flight (step (offered 0x40000000080000001)) =
      some (some ⟨⟨0x40, 0x86, 0x79, 0x40, 0x66, 0x6D⟩, 0⟩) := by decide

/-- R188: the write of cell 5 completes the command. -/
theorem test_write_out_last :
    seen (fun t => (t.sb, t.flight, t.rsp)) (step (writingOut 5)) = some ([(5, 6)], none, some ⟨.ok, 0⟩) := by decide
theorem test_write_out_first :
    seen (fun t => (t.sb, t.flight, t.rsp)) (step (writingOut 0)) =
      some ([(0, 1)], some ⟨⟨1, 2, 3, 4, 5, 6⟩, 1⟩, none) := by decide

/-- Section 2.5. -/
theorem test_settime :
    seen recordNow (step (offered 0x501FFFF0C1F173B3B)) = some 0x01FFFF0C1F173B3B := by decide
theorem test_settime_refused :
    seen (fun t => (recordNow t, t.rsp)) (step (offered 0x50007E7021D0C0000)) =
      some (0x0007DD0101000000, some ⟨.illegalArg, 0⟩) := by decide

/-- R148: directly after reset. -/
theorem test_rdtime :
    seen State.rsp (step (offered 0x60000000000000000)) = some (some ⟨.ok, 0x0007DD0101000000⟩) := by decide
theorem test_rdtime_set :
    seen State.rsp (exec .rdtime (clockAt 0x0107E80701173B3B)) = some (some ⟨.ok, 0x0107E80701173B3B⟩) := by decide

/-- Section 2.6: the year boundary, and the wrap of the year field. -/
theorem test_rdlocal :
    seen State.rsp (exec .rdlocal (clockAt 0x0107E70C1F171E00)) = some (some ⟨.ok, 0x0107E80101001E00⟩) := by decide
theorem test_rdlocal_wrap :
    seen State.rsp (exec .rdlocal (clockAt 0x01FFFF0C1F173B3B)) = some (some ⟨.ok, 0x0100000101003B3B⟩) := by decide

/-- Section 2.3. -/
theorem test_muxon :
    seen (fun t => (t.muxOn, t.segOut, t.colOut)) (step (offered 0x80000000000000000)) = some (true, 0x00, 0) := by decide
theorem test_muxoff :
    seen (fun t => (t.muxOn, t.segOut, t.colOut, t.cursor)) (exec .muxoff (running 1)) = some (false, 0x00, 0, 1) := by
  decide

/-- Section 2.5: a leap day, and the spring transition. -/
theorem test_tick1hz_leap : seen recordNow (exec .tick1hz (clockAt 0x0007E8021C173B3B)) = some 0x0007E8021D000000 := by
  decide
theorem test_tick1hz_spring : seen recordNow (exec .tick1hz (clockAt 0x0007E8031F003B3B)) = some 0x0107E8031F010000 := by
  decide

/-- Section 2.3: the wrap to cell 0, and a tick that is dropped. -/
theorem test_tickmux_wrap :
    seen (fun t => (t.cursor, t.segOut, t.colOut)) (exec .tickmux (running 5)) = some (0, 0x40, 0b000001) := by decide
theorem test_tickmux_dropped :
    seen (fun t => (t.cursor, t.segOut, t.colOut)) (exec .tickmux { State.reset with sb := drawnCells }) =
      some (0, 0x00, 0) := by decide

/-- Both tick inputs in one cycle are two steps (R77, R235). -/
theorem test_two_events_two_steps :
    seen State.schedule (step { State.reset with schedule := [.events 0b11] }) = some [.events 0b10] := by decide

/-- The rows of the opcode table run as the first instruction after reset. -/
theorem test_withFetchWord :
    seen State.rsp (step (State.reset.withFetchWord 72 0x1000000000000035B)) = some (some ⟨.ok, 0⟩) ∧
    seen recordNow (step (State.reset.withFetchWord 8 1)) = some 0x0007DD0101000001 := by decide

/-- Calendar: section 2.4. -/
theorem test_calendar :
    leap 2100 = false ∧ leap 0 = true ∧ dim 2024 2 = 29 ∧ dow 0 1 1 = 6 ∧ dow 2099 12 31 = 4 ∧ lastSun 2026 10 = 25 := by
  decide

/-- Section 2.1 and R80: the pseudo-instruction WRMSG "bAtt", and a decimal literal. -/
theorem test_wrmsg :
    wrmsg "bAtt" =
      some [.wrcell 0 0x7C, .wrcell 1 0x77, .wrcell 2 0x78, .wrcell 3 0x78, .wrcell 4 0, .wrcell 5 0] := by decide
theorem test_decimal_literal : nearestBinary32 false ⟨12345, 100⟩ = 0x42F6E666 := by decide

/-- R80: program text, with a comment, a decimal literal and repeated events. -/
theorem test_assemble_command : assemble "WRCELL 3, 0x5B ; a cell" = some [.cmd 0x1000000000000035B] := by decide
theorem test_assemble_lines :
    assemble "FMTFLT -123.45\nTICKMUX 2" = some [.cmd 0x400000000C2F6E666, .evt 0b10, .evt 0b10] := by decide

/-! ## Witnesses: for each obligation with hypotheses, concrete data that meets them, clause by clause -/

/-- EncodeOfDecodeIsTheWord. -/
theorem witness_decoded_word : decodeCommand 0x1000000000000035B = .ok (.wrcell 3 0x5B) := by rfl

/-- ReservedOpcodesAnswerIllegalOp: opcodes 0xA and 0xF. -/
theorem witness_reserved_opcode :
    Ready (scheduled 0xA0000000000000000) ∧ (scheduled 0xA0000000000000000).schedule = .command :: [] ∧
    (scheduled 0xA0000000000000000).cmds = 0xA0000000000000000 :: [] ∧ 10 ≤ (opOf 0xA0000000000000000).toNat ∧
    Ready (scheduled 0xF0000000000000001) ∧ 10 ≤ (opOf 0xF0000000000000001).toNat := by
  refine ⟨⟨rfl, rfl⟩, rfl, rfl, by decide, ⟨rfl, rfl⟩, by decide⟩

/-- Event words spread over seven turns of the command agent. -/
def sevenGaps : List (List EvtWord) := [[0b01], [], [0b11, 0b10], [], [0b00], [], [0b10]]

/-- CommandWordsFollowTheDecodeOrder: a format command followed by exactly seven turns and one more event word, and its
three clauses at the boundary opcodes and indices. -/
theorem witness_decode_order :
    (let s := { scheduled 0x300000000000F4240 with schedule := .command :: (interleaved sevenGaps ++ [.events 0b01]) }
     Ready s ∧ s.schedule = .command :: (interleaved sevenGaps ++ [.events 0b01]) ∧ sevenGaps.length = 7 ∧
      s.cmds = 0x300000000000F4240 :: [] ∧ argOf 0x300000000000F4240 &&& mustBeZero 3 = 0 ∧
      FieldsInRange 0x300000000000F4240) ∧
    (Ready (scheduled 0xA0000000000000000) ∧ (scheduled 0xA0000000000000000).schedule = .command :: [] ∧
      (scheduled 0xA0000000000000000).cmds = 0xA0000000000000000 :: [] ∧ (opOf 0xA0000000000000000).toNat ≥ 10) ∧
    ((opOf 0x90000000000000001).toNat < 10 ∧ argOf 0x90000000000000001 &&& mustBeZero 9 ≠ 0) ∧
    ((opOf 0x10000000000000600).toNat < 10 ∧ ¬ FieldsInRange 0x10000000000000600) ∧
    ((opOf 0x10000000000000500).toNat < 10 ∧ argOf 0x10000000000000500 &&& mustBeZero 1 = 0 ∧
      FieldsInRange 0x10000000000000500) ∧
    ((opOf 0x501FFFF0C1F173B3B).toNat < 10 ∧ argOf 0x501FFFF0C1F173B3B &&& mustBeZero 5 = 0 ∧
      FieldsInRange 0x501FFFF0C1F173B3B) := by
  refine ⟨⟨⟨rfl, rfl⟩, rfl, rfl, rfl, by decide, ?_⟩, ⟨⟨rfl, rfl⟩, rfl, rfl, by decide⟩, by decide, ⟨by decide, ?_⟩,
    ⟨by decide, by decide, ?_⟩, ⟨by decide, by decide, ?_⟩⟩ <;> (unfold FieldsInRange; decide)

/-- AcceptedCommandsRespondOnAnEmptySchedule: a command of one step, and a format command. -/
theorem witness_empty_schedule :
    (Ready (offered 0x10000000000000500) ∧ (offered 0x10000000000000500).schedule = [] ∧
      (offered 0x10000000000000500).cmds = 0x10000000000000500 :: [] ∧
      decodeCommand 0x10000000000000500 = .ok (.wrcell 5 0) ∧ Instr.wf (.wrcell 5 0) = true) ∧
    (decodeCommand 0x300000000000F4240 = .ok (.fmtint 1000000) ∧ Instr.wf (.fmtint 1000000) = true) := by
  exact ⟨⟨⟨rfl, rfl⟩, rfl, rfl, rfl, rfl⟩, rfl, rfl⟩

/-- RefusedCommandsChangeNothing: an IllegalOp and an IllegalArg. -/
theorem witness_refused_command :
    (scheduled 0xA0000000000000000).rstN = true ∧ (scheduled 0xA0000000000000000).schedule = .command :: [] ∧
    step (scheduled 0xA0000000000000000) = .next { State.reset with rsp := some ⟨.illegalOp, 0⟩ } ∧
    step (scheduled 0x10000000000000600) = .next { State.reset with rsp := some ⟨.illegalArg, 0⟩ } := by
  exact ⟨rfl, rfl, rfl, rfl⟩

/-- StepRunsTheDecodedInstruction: a command, one event, two events. -/
theorem witness_step_runs :
    (Ready (scheduled 0x1000000000000035B) ∧ (scheduled 0x1000000000000035B).schedule = .command :: [] ∧
      (scheduled 0x1000000000000035B).cmds = 0x1000000000000035B :: [] ∧
      decodeCommand 0x1000000000000035B = .ok (.wrcell 3 0x5B)) ∧
    (({ State.reset with schedule := [.events 0b10] } : State).rstN = true ∧ decodeEvents 0b10 = [.tickmux]) ∧
    ({ State.reset with schedule := [.events 0b11] } : State).schedule = .events 0b11 :: [] := by
  exact ⟨⟨⟨rfl, rfl⟩, rfl, rfl, rfl⟩, ⟨rfl, rfl⟩, rfl⟩

/-- FetchedTableWordsRun: a command row and an event row. -/
theorem witness_fetched_word :
    (decodeTableWord 72 0x90000000000000000 = some .muxoff ∧ 72 > 8) ∧
    (decodeTableWord 8 2 = some .tickmux ∧ 8 ≤ 8 ∧ 2 < 3) := by decide

/-- OnlyTheListedInstructionsWriteARegister: instructions that do change each register. -/
theorem witness_writers :
    seen (fun t => decide (t.wall ≠ State.reset.wall)) (exec .tick1hz State.reset) = some true ∧
    seen (fun t => decide (t.tz ≠ 0)) (exec .tick1hz (clockAt 0x0007E8031F003B3B)) = some true ∧
    seen (fun t => decide (t.tz ≠ 0)) (exec (.settime ⟨0, 0, 12, 15, 1, 2024, 1⟩) State.reset) = some true ∧
    seen (fun t => decide (t.sb ≠ [])) (exec (.wrcell 3 0x5B) State.reset) = some true ∧
    seen (fun t => decide (t.cursor ≠ 5 ∧ t.segOut ≠ 0x6D ∧ t.colOut ≠ oneHot 5)) (exec .tickmux (running 5)) =
      some true ∧
    seen (fun t => decide (t.muxOn ≠ false)) (exec .muxon State.reset) = some true ∧
    seen (fun t => decide (t.muxOn ≠ true ∧ t.segOut ≠ 0x06 ∧ t.colOut ≠ oneHot 1)) (exec .muxoff (running 1)) =
      some true ∧
    seen (fun t => decide (t.flight ≠ none)) (exec (.fmtint 0) State.reset) = some true ∧
    seen (fun t => decide (t.rsp ≠ none)) (exec .nop State.reset) = some true := by decide

/-- SecondsCommuteWithTheDisplay: TICKMUX and WRCELL are such instructions. -/
theorem witness_commuting :
    (Instr.tickmux ≠ .tick1hz ∧ Instr.tickmux ≠ .rdtime ∧ Instr.tickmux ≠ .rdlocal ∧ ∀ r, Instr.tickmux ≠ .settime r) ∧
    (Instr.wrcell 0 1 ≠ .tick1hz ∧ ∀ r, Instr.wrcell 0 1 ≠ .settime r) := by
  refine ⟨⟨by decide, by decide, by decide, ?_⟩, by decide, ?_⟩ <;> (intro r h; cases h)

/-- CellsReadBackAndStayCanonical: the full buffer and the empty one. -/
theorem witness_canonical_memory : Memory.wf drawnCells = true ∧ Memory.wf [] = true := by decide

/-- WrcellWritesOneCell and RdcellRespondsTheCell: the boundary indices of both clauses. -/
theorem witness_cell_index :
    ((0 : BitVec 3).toNat < 6 ∧ (5 : BitVec 3).toNat < 6 ∧ (running 0).sb.wf = true) ∧
    ((6 : BitVec 3).toNat > 5 ∧ (7 : BitVec 3).toNat > 5) := by decide

/-- WrittenCellShowsAtItsNextTurn: the next tick, and six ticks later for the lit cell. -/
theorem witness_written_cell :
    ((3 : BitVec 3).toNat < 6 ∧ (running 2).sb.wf = true ∧ (running 2).muxOn = true ∧ 1 ≤ 1 ∧
      ((running 2).cursor.toNat + 1) % 6 = (3 : BitVec 3).toNat) ∧
    (1 ≤ 6 ∧ ((running 3).cursor.toNat + 6) % 6 = (3 : BitVec 3).toNat) := by decide

/-- MessagesAreDrawnFromTheLeadingCell: no character, five, and six. -/
theorem witness_message :
    (wrmsg "").isSome = true ∧ (wrmsg "Error").isSome = true ∧ (wrmsg "negInf").isSome = true ∧
    (running 0).sb.wf = true := by decide

/-- TickmuxShowsTheNextCell, SixRefreshTicksShowEveryCellOnce and the second clause of MuxoffDarkensAndKeepsTheScan: an
advance, and the wrap after cell 5. -/
theorem witness_running_scan :
    ((running 0).muxOn = true ∧ (1 : CellIdx).val = ((running 0).cursor.toNat + 1) % 6) ∧
    ((running 5).muxOn = true ∧ (0 : CellIdx).val = ((running 5).cursor.toNat + 1) % 6) ∧
    (1 ≤ 7 ∧ (1 : CellIdx).val = ((running 0).cursor.toNat + 7) % 6) := by decide

/-- TickmuxSuspendedChangesNothing. -/
theorem witness_suspended : State.reset.muxOn = false ∧ MuxValid State.reset :=
  ⟨rfl, by decide, .inl rfl, fun _ => ⟨rfl, rfl⟩⟩

/-- PinsPassThroughTheFourActions: a lit cell, and the dark display just after MUXON. -/
theorem witness_pins :
    (MuxValid (running 5) ∧ (running 5).muxOn = true ∧ (0 : CellIdx).val = ((running 5).cursor.toNat + 1) % 6) ∧
    (MuxValid { State.reset with muxOn := true } ∧ (1 : CellIdx).val = (State.reset.cursor.toNat + 1) % 6) :=
  ⟨⟨⟨by decide, .inr rfl, fun h => by cases h⟩, rfl, rfl⟩, ⟨by decide, .inl rfl, fun h => by cases h⟩, rfl⟩

/-- WeekdayAdvancesWithTheDate: 28 February of a leap year, and 31 December of the last year but one; the day before the
last of year 65535. -/
theorem witness_weekday :
    (let w : WallClock := ⟨0, 0, 0, 28, 2, 2024⟩
     1 ≤ w.month.toNat ∧ w.month.toNat ≤ 12 ∧ 1 ≤ w.day.toNat ∧ w.day.toNat ≤ dim w.year.toNat w.month.toNat ∧
      ¬ (w.year.toNat = 65535 ∧ w.month.toNat = 12 ∧ w.day.toNat = 31)) ∧
    (let w : WallClock := ⟨0, 0, 0, 31, 12, 65534⟩
     1 ≤ w.month.toNat ∧ w.month.toNat ≤ 12 ∧ 1 ≤ w.day.toNat ∧ w.day.toNat ≤ dim w.year.toNat w.month.toNat ∧
      ¬ (w.year.toNat = 65535 ∧ w.month.toNat = 12 ∧ w.day.toNat = 31)) ∧
    (let w : WallClock := ⟨0, 0, 0, 30, 12, 65535⟩
     1 ≤ w.month.toNat ∧ w.month.toNat ≤ 12 ∧ 1 ≤ w.day.toNat ∧ w.day.toNat ≤ dim w.year.toNat w.month.toNat ∧
      ¬ (w.year.toNat = 65535 ∧ w.month.toNat = 12 ∧ w.day.toNat = 31)) := by decide

/-- LastSundayScanEndsWithinSevenProbes. -/
theorem witness_month : (1 ≤ 1 ∧ 1 ≤ 12) ∧ (1 ≤ 12 ∧ 12 ≤ 12) := by decide

/-- SecondsCascadeThroughTheCalendar: a state for each carry. -/
theorem witness_cascade :
    ClockValid (clockAt 0x0007E8031F003B3A) ∧ (clockAt 0x0007E8031F003B3A).wall.sec.toNat < 59 ∧
    ClockValid (clockAt 0x0007E8031F003A3B) ∧ (clockAt 0x0007E8031F003A3B).wall.min.toNat < 59 ∧
    ClockValid (clockAt 0x0007E8031E163B3B) ∧ (clockAt 0x0007E8031E163B3B).wall.hour.toNat < 23 ∧
    ClockValid (clockAt 0x0007E8021C173B3B) ∧ (clockAt 0x0007E8021C173B3B).wall.day.toNat < dim 2024 2 ∧
    ClockValid (clockAt 0x0107E9041E173B3B) ∧ (clockAt 0x0107E9041E173B3B).wall.day.toNat = dim 2025 4 ∧
    ClockValid (clockAt 0x00FFFF0C1F173B3B) ∧ (clockAt 0x00FFFF0C1F173B3B).wall.month.toNat = 12 := by
  unfold ClockValid
  decide

/-- DaylightSavingFollowsTheLastSunday: the two instants, an earlier Sunday of March, and another second. -/
theorem witness_dst :
    (let t := cascade (clockAt 0x0007E8031F003B3B).wall
     t.hour.toNat = 1 ∧ t.min.toNat = 0 ∧ t.sec.toNat = 0 ∧ dow t.year.toNat t.month.toNat t.day.toNat = 0 ∧
      t.month.toNat = 3 ∧ t.day.toNat ≥ lastSun t.year.toNat 3) ∧
    (let t := cascade (clockAt 0x0107E80A1B003B3B).wall
     t.hour.toNat = 1 ∧ t.min.toNat = 0 ∧ t.sec.toNat = 0 ∧ dow t.year.toNat t.month.toNat t.day.toNat = 0 ∧
      t.month.toNat = 10 ∧ t.day.toNat ≥ lastSun t.year.toNat 10) ∧
    (let t := cascade (clockAt 0x0007E80318003B3B).wall
     t.hour.toNat = 1 ∧ dow t.year.toNat t.month.toNat t.day.toNat = 0 ∧
      ¬ (t.month.toNat = 3 ∧ t.day.toNat ≥ lastSun t.year.toNat 3) ∧ ¬ t.month.toNat = 10) ∧
    (let t := cascade (clockAt 0x0007E8031F010000).wall
     ¬ (t.hour.toNat = 1 ∧ t.min.toNat = 0 ∧ t.sec.toNat = 0)) := by decide

/-- OneDayOfTicksAdvancesTheDate. -/
theorem witness_midnight :
    ClockValid State.reset ∧ State.reset.wall.hour = 0 ∧ State.reset.wall.min = 0 ∧ State.reset.wall.sec = 0 := by
  unfold ClockValid
  decide

/-- YearWrapsAfter65535. -/
theorem witness_last_second : (clockAt 0x00FFFF0C1F173B3B).wall = ⟨59, 59, 23, 31, 12, 65535⟩ := by decide

/-- SettimeReplacesTheClockOrRefuses and SettimeThenRdtimeGivesTheRecordBack: the first and last accepted years, a year of
0, and a day too many. -/
theorem witness_time_record :
    settable ⟨0, 0, 0, 1, 1, 1, 0⟩ = true ∧ settable ⟨59, 59, 23, 31, 12, 65535, 1⟩ = true ∧
    (65535 : BitVec 16).toNat ≠ 0 ∧ validTime 59 59 23 31 12 65535 = true ∧
    (0 : BitVec 16).toNat = 0 ∧ validTime 0 0 12 29 2 2023 = false := by decide

/-- LocalTimeAddsTheOffsetWithRollover: no offset, no rollover, and the three rollovers. -/
theorem witness_local :
    (ClockValid State.reset ∧ State.reset.tz = 0) ∧
    (ClockValid (clockAt 0x0107E9041E160000) ∧ (clockAt 0x0107E9041E160000).tz = 1 ∧
      (clockAt 0x0107E9041E160000).wall.hour.toNat < 23) ∧
    (ClockValid (clockAt 0x0107E8021C171E00) ∧ (clockAt 0x0107E8021C171E00).wall.day.toNat < dim 2024 2) ∧
    (ClockValid (clockAt 0x0107E9041E173B3B) ∧ (clockAt 0x0107E9041E173B3B).wall.day.toNat = dim 2025 4 ∧
      (clockAt 0x0107E9041E173B3B).wall.hour.toNat = 23) ∧
    (ClockValid (clockAt 0x01FFFF0C1F173B3B) ∧ (clockAt 0x01FFFF0C1F173B3B).wall.month.toNat = 12) := by
  unfold ClockValid
  decide

/-- BusyTurnWritesTheNextCell: the first, the last but one and the last cell. -/
theorem witness_busy_turn :
    ∀ next : CellIdx, (writingOut next).rstN = true ∧ (writingOut next).flight = some ⟨⟨1, 2, 3, 4, 5, 6⟩, next⟩ ∧
      (writingOut next).schedule = .command :: [] ∧ (writingOut next).sb.wf = true :=
  fun _ => ⟨rfl, rfl, rfl, rfl⟩

/-- Four event words spread over six turns of the command agent. -/
def sixGaps : List (List EvtWord) := [[0b01], [], [0b11, 0b10], [], [0b00], []]

/-- WriteOutIsExactUnderEveryInterleaving: no turn yet, three turns, and all six. -/
theorem witness_interleaving (gaps : List (List EvtWord)) :
    (gaps = [] ∨ gaps = sixGaps.take 3 ∨ gaps = sixGaps) →
    ({ writingOut 0 with schedule := interleaved gaps } : State).rstN = true ∧
    ({ writingOut 0 with schedule := interleaved gaps } : State).flight = some ⟨⟨1, 2, 3, 4, 5, 6⟩, 0⟩ ∧
    ({ writingOut 0 with schedule := interleaved gaps } : State).sb.wf = true ∧ gaps.length ≤ 6 := by
  rintro (rfl | rfl | rfl) <;> exact ⟨rfl, rfl, rfl, by decide⟩

/-- TicksAreNeverDeferredOrLost: while the multiplexer runs and while it does not; and with a further word waiting, the
turns being exactly those the write-out needs. -/
theorem witness_ticks :
    ({ running 5 with flight := some ⟨⟨1, 2, 3, 4, 5, 6⟩, 2⟩, schedule := interleaved sixGaps } : State).rstN = true ∧
    (running 5).cmds = [] ∧ (running 5).cursor.toNat < 6 ∧ (running 5).muxOn = true ∧
    (writingOut 0).cmds = [] ∧ (writingOut 0).cursor.toNat < 6 ∧ (writingOut 0).muxOn = false ∧
    ({ writingOut 0 with cmds := [0], schedule := interleaved sixGaps } : State).schedule = interleaved sixGaps ∧
    (0 : CellIdx).val + sixGaps.length ≤ 6 := by decide

/-- FormatCommandsComplete. -/
theorem witness_format_command :
    Ready (offered 0x300000000000F4240) ∧ (offered 0x300000000000F4240).sb.wf = true ∧
    (offered 0x300000000000F4240).schedule = [] ∧ encode (.fmtint 1000000) = .cmd 0x300000000000F4240 ∧
    encode (.fmtflt 0x42F6E666) = .cmd 0x40000000042F6E666 ∧
    (offered 0x300000000000F4240).cmds = 0x300000000000F4240 :: [] := by
  exact ⟨⟨rfl, rfl⟩, rfl, rfl, rfl, rfl, rfl⟩

/-- IntegersThatFitAreRightJustified: the largest magnitudes of both signs, at the units and at the leading cell. -/
theorem witness_fixed_integer :
    ((999999 : Int) ≠ 0 ∧ 6 = (if (999999 : Int) < 0 then 5 else 6) ∧ (999999 : Int).natAbs < 10 ^ 6 ∧ 5 < 6 ∧
      (0 : CellIdx).val + 5 = 5) ∧
    ((-99999 : Int) ≠ 0 ∧ 5 = (if (-99999 : Int) < 0 then 5 else 6) ∧ (-99999 : Int).natAbs < 10 ^ 5 ∧ 4 < 5 ∧
      (1 : CellIdx).val + 4 = 5) := by decide

/-- WideIntegersAreRoundedScientific: the smallest of both signs, the extremes, and a rounding that carries. -/
theorem witness_wide_integer :
    ∀ p ∈ ([(1000000, 6), (-100000, 5), (2 ^ 63 - 1, 6), (-(2 ^ 63), 5), (9995000, 6)] : List (Int × Nat)),
      -(2 ^ 63) ≤ p.1 ∧ p.1 < 2 ^ 63 ∧ p.2 = (if p.1 < 0 then 5 else 6) ∧ 10 ^ p.2 ≤ p.1.natAbs := by decide

/-- ExponentCellsHaveFourLayouts: the boundaries of its clauses. -/
theorem witness_exponent : (10 ≤ 10 ∧ 10 ≤ 99) ∧ (0 ≤ 9 ∧ 9 ≤ 9) ∧ (1 ≤ 1 ∧ 1 ≤ 9) := by decide

/-- SpecialFloatsShowTheirMessages: a NaN, both infinities, negative zero. -/
theorem witness_special_float :
    (fltExp 0xFFC00000 = 255 ∧ fltFrac 0xFFC00000 ≠ 0) ∧
    (fltExp 0x7F800000 = 255 ∧ fltFrac 0x7F800000 = 0 ∧ fltNeg 0x7F800000 = false) ∧
    (fltExp 0xFF800000 = 255 ∧ fltFrac 0xFF800000 = 0 ∧ fltNeg 0xFF800000 = true) ∧
    (fltExp 0x80000000 = 0 ∧ fltFrac 0x80000000 = 0) := by decide

/-- OrderOfMagnitudeIsExact: the smallest and the largest finite pattern. -/
theorem witness_finite : classify 0x00000001 = .finite ∧ classify 0x7F7FFFFF = .finite := by decide

theorem fields_one : fltExp 0x3F800000 = 127 ∧ fltFrac 0x3F800000 = 0 ∧ fltNeg 0x3F800000 = false := by decide
theorem fields_lifted : fltExp 0x411FFFFF = 130 ∧ fltFrac 0x411FFFFF = 2097151 ∧ fltNeg 0x411FFFFF = false := by decide
theorem fields_negative : fltExp 0xC7C34F80 = 143 ∧ fltFrac 0xC7C34F80 = 4411264 ∧ fltNeg 0xC7C34F80 = true := by decide

/-- FixedFloatsFollowTheRationalRule: 1, and 9.99999905, which the bias lifts to ten. -/
theorem witness_fixed_float :
    (classify 0x3F800000 = .finite ∧ (10 : ℚ) ^ (0 : ℤ) ≤ floatValue 0x3F800000 ∧
      floatValue 0x3F800000 < (10 : ℚ) ^ ((0 : ℤ) + 1) ∧
      ¬ (floatValue 0x3F800000 < 1 / 1000 ∨ floatValue 0x3F800000 > (10 : ℚ) ^ 6 - 1) ∧
      floatValue 0x3F800000 + 1 / 1000000 < 10) ∧
    (classify 0x411FFFFF = .finite ∧ (10 : ℚ) ^ (0 : ℤ) ≤ floatValue 0x411FFFFF ∧
      floatValue 0x411FFFFF < (10 : ℚ) ^ ((0 : ℤ) + 1) ∧
      ¬ (floatValue 0x411FFFFF < 1 / 1000 ∨ floatValue 0x411FFFFF > (10 : ℚ) ^ 6 - 1) ∧
      10 ≤ floatValue 0x411FFFFF + 1 / 1000000) ∧
    (classify 0xC7C34F80 = .finite ∧ fltNeg 0xC7C34F80 = true ∧ floatValue 0xC7C34F80 = 99999) := by
  refine ⟨⟨by decide, ?_⟩, ⟨by decide, ?_⟩, by decide, by decide, ?_⟩ <;>
    norm_num [floatValue, fields_one, fields_lifted, fields_negative]

theorem fields_million : fltExp 0x49742400 = 146 ∧ fltFrac 0x49742400 = 7611392 ∧ fltNeg 0x49742400 = false := by decide
theorem fields_least : fltExp 0x80000001 = 0 ∧ fltFrac 0x80000001 = 1 ∧ fltNeg 0x80000001 = true := by decide
theorem fields_small : fltExp 0x3727C5AC = 110 ∧ fltFrac 0x3727C5AC = 2606508 ∧ fltNeg 0x3727C5AC = false := by decide

/-- ScientificFloatsFollowTheRationalRule: 1000000, and 9.99999974e-6, which the bias lifts to 1e-5, and the negative
subnormal nearest zero. -/
theorem witness_scientific_float :
    (classify 0x49742400 = .finite ∧ (10 : ℚ) ^ (6 : ℤ) ≤ floatValue 0x49742400 ∧
      floatValue 0x49742400 < (10 : ℚ) ^ ((6 : ℤ) + 1) ∧ floatValue 0x49742400 > (10 : ℚ) ^ 6 - 1 ∧
      floatValue 0x49742400 / (10 : ℚ) ^ (6 : ℤ) + 1 / 1000000 < 10) ∧
    (classify 0x3727C5AC = .finite ∧ (10 : ℚ) ^ (-6 : ℤ) ≤ floatValue 0x3727C5AC ∧
      floatValue 0x3727C5AC < (10 : ℚ) ^ ((-6 : ℤ) + 1) ∧ floatValue 0x3727C5AC < 1 / 1000 ∧
      10 ≤ floatValue 0x3727C5AC / (10 : ℚ) ^ (-6 : ℤ) + 1 / 1000000) ∧
    (classify 0x80000001 = .finite ∧ fltNeg 0x80000001 = true ∧ (10 : ℚ) ^ (-45 : ℤ) ≤ floatValue 0x80000001 ∧
      floatValue 0x80000001 < (10 : ℚ) ^ ((-45 : ℤ) + 1) ∧ floatValue 0x80000001 < 1 / 1000) := by
  refine ⟨⟨by decide, ?_⟩, ⟨by decide, ?_⟩, by decide, by decide, ?_⟩ <;>
    norm_num [floatValue, fields_million, fields_small, fields_least]

/-- AssertedResetHoldsEveryRegister: a busy block that is reset, a tick under reset, the end of reset, and a block under
reset with an empty schedule. -/
theorem witness_reset_slots :
    ({ running 3 with schedule := [.rst false] } : State).schedule = .rst false :: [] ∧
    ({ State.reset with rstN := false, schedule := [.events 0b01] } : State).rstN = false ∧
    Slot.events 0b01 ≠ .rst true ∧
    ({ State.reset with rstN := false, schedule := [.rst true] } : State).schedule = .rst true :: [] ∧
    ({ State.reset with rstN := false } : State).rstN = false ∧
    ({ State.reset with rstN := false } : State).schedule = [] := by decide

/-- EveryStepKeepsTheInvariant: the reset state, and a running display. -/
theorem witness_invariant :
    BoundaryInv State.reset ∧ step State.reset = .next State.reset ∧ BoundaryInv (running 5) := by
  refine ⟨⟨?_, ⟨by decide, .inl rfl, fun _ => ⟨rfl, rfl⟩⟩, rfl⟩, rfl, ?_, ⟨by decide, .inr rfl, fun h => by cases h⟩, rfl⟩ <;>
    (unfold ClockValid; decide)

end Sys2Proof.Tests
end

section
/-! The step runs the instruction that the word in its slot decodes to (00_scope.md R9, 20_memory.md R58, R77, R235). -/

namespace Sys2Proof.Machine

/-- An event word that holds one event is that event (R77). -/
theorem eventTurn_of_decodeEvents_singleton {e : EvtWord} {i : Instr} (h : decodeEvents e = [i]) (s : State) :
    eventTurn e s = exec i s := by
  simp [eventTurn, h]

/-- The command agent's turn with a word that decodes: the word is taken and its instruction executed (R79). -/
theorem step_command {s : State} {w : CmdWord} {ws : List CmdWord} {rest : List Slot} {i : Instr} (hready : Ready s)
    (hsched : s.schedule = .command :: rest) (hcmds : s.cmds = w :: ws) (hdec : decodeCommand w = .ok i) :
    step s = exec i { s with cmds := ws, schedule := rest, rsp := none } := by
  obtain ⟨hrst, hflight⟩ := hready
  rw [step_of_schedule hsched, runSlot_accept (by simpa using hrst) (by simpa using hflight) (by simpa using hcmds),
    commandStep_ok hdec]
  rfl

/-- The turn of an event word while reset is released, whatever events it holds. -/
theorem step_events {s : State} {e : EvtWord} {rest : List Slot} (hrst : s.rstN = true)
    (hsched : s.schedule = .events e :: rest) : step s = eventTurn e (afterSlot rest s) := by
  rw [step_of_schedule hsched, runSlot_events (by simpa using hrst)]

/-- Settles O8: each kind of slot by its step lemma, `step_command` for a command word and `step_events` for an event word
of one event or of both. -/
theorem stepRunsTheDecodedInstruction : Obligations.StepRunsTheDecodedInstruction := by
  unfold Obligations.StepRunsTheDecodedInstruction
  refine ⟨?command, ?oneEvent, ?bothEvents⟩
  case command =>
    intro s w ws rest i hready hsched hcmds hdec
    exact step_command hready hsched hcmds hdec
  case oneEvent =>
    intro s e rest i hrst hsched hdec
    rw [step_events hrst hsched, eventTurn_of_decodeEvents_singleton hdec]
    rfl
  case bothEvents =>
    intro s rest hrst hsched
    rw [step_events hrst hsched, eventTurn_both]
    rfl

end Sys2Proof.Machine
end

section
/-! What an instruction can do to the state, said once (30_encoding.md R72, R77), and the frame of R20 read off from it. -/

namespace Sys2Proof.Machine

/-- `Effect i s t`: the ways an instruction `i` can take the state `s` to `t`, one constructor per way. -/
inductive Effect : Instr → State → State → Prop where
  /-- A command answers or is refused, and changes nothing else; the `exec_` laws say which answer it is. -/
  | answer {i : Instr} {s : State} (r : Response)
      (h1 : i ≠ .tick1hz := by nofun) (h2 : i ≠ .tickmux := by nofun) :
      Effect i s { s with rsp := some r }
  /-- WRCELL writes a cell (R105). -/
  | writeCell {s : State} (idx : BitVec 3) (data : Byte) (h : idx.toNat < 6) :
      Effect (.wrcell idx data) s (respond 0 { s with sb := s.sb.write ⟨idx.toNat, h⟩ data })
  /-- FMTINT puts its frame in flight (R186). -/
  | startInt {s : State} (n : BitVec 64) : Effect (.fmtint n) s (startFormat (intFrame (signedOperand n)) s)
  /-- FMTFLT puts its frame in flight (R212). -/
  | startFlt {s : State} (v : BitVec 32) : Effect (.fmtflt v) s (startFormat (floatFrame v) s)
  /-- SETTIME sets the clock from an acceptable record (R147). -/
  | setClock {s : State} (r : TimeRecord) (h : settable r = true) :
      Effect (.settime r) s (respond 0 { s with wall := wallOf r, tz := r.tz })
  /-- MUXON starts the display (R123). -/
  | startScan {s : State} : Effect .muxon s (respond 0 { s with muxOn := true })
  /-- MUXOFF stops the display and darkens it (R124). -/
  | stopScan {s : State} :
      Effect .muxoff s (respond 0 { s with muxOn := false, colOut := 0b000000, segOut := 0x00 })
  /-- TICK1HZ counts a second (R144, R145). -/
  | second {s : State} :
      Effect .tick1hz s { s with wall := cascade s.wall, tz := dstEvaluate (cascade s.wall) s.tz }
  /-- TICKMUX shows the next cell while the display runs (R120). -/
  | showCell {s : State} (h : s.muxOn = true) (c : CellIdx) (hc : c.val = (s.cursor.toNat + 1) % 6) :
      Effect .tickmux s { s with cursor := BitVec.ofNat 3 c.val, segOut := s.sb.read c, colOut := 1#6 <<< c.val }
  /-- TICKMUX does nothing while the display is suspended (R122). -/
  | suspended {s : State} (h : s.muxOn = false) : Effect .tickmux s s

/-- An instruction whose meaning at `s` is known to be one of the ways of `Effect` can do nothing else. -/
theorem Effect.of_exec {i : Instr} {s t u : State} (he : exec i s = .next u) (hu : Effect i s u)
    (h : exec i s = .next t) : Effect i s t := by
  rw [he] at h
  cases h
  exact hu

/-- Everything an instruction can do is one of the ways of `Effect`. -/
theorem exec_effect {i : Instr} {s t : State} (h : exec i s = .next t) : Effect i s t := by
  cases i with
  | nop => exact .of_exec (exec_nop s) (.answer _) h
  | wrcell idx data =>
    by_cases hidx : idx.toNat < 6
    · exact .of_exec (exec_wrcell hidx data s) (.writeCell idx data hidx) h
    · exact .of_exec (exec_wrcell_refused (by omega) data s) (.answer _) h
  | rdcell idx =>
    by_cases hidx : idx.toNat < 6
    · exact .of_exec (exec_rdcell hidx s) (.answer _) h
    · exact .of_exec (exec_rdcell_refused (by omega) s) (.answer _) h
  | fmtint n => exact .of_exec (exec_fmtint n s) (.startInt n) h
  | fmtflt v => exact .of_exec (exec_fmtflt v s) (.startFlt v) h
  | settime r =>
    cases hr : settable r with
    | true => exact .of_exec (exec_settime hr s) (.setClock r hr) h
    | false => exact .of_exec (exec_settime_refused hr s) (.answer _) h
  | rdtime => exact .of_exec (exec_rdtime s) (.answer _) h
  | rdlocal => exact .of_exec (exec_rdlocal s) (.answer _) h
  | muxon => exact .of_exec (exec_muxon s) .startScan h
  | muxoff => exact .of_exec (exec_muxoff s) .stopScan h
  | tick1hz => exact .of_exec (exec_tick1hz s) .second h
  | tickmux =>
    cases hm : s.muxOn with
    | true =>
      have hlt : (s.cursor.toNat + 1) % 6 < 6 := Nat.mod_lt _ (by decide)
      exact .of_exec (exec_tickmux_running hm (c := ⟨_, hlt⟩) rfl) (.showCell hm _ rfl) h
    | false => exact .of_exec (exec_tickmux_suspended hm) (.suspended hm) h

/-- Settles O11: for each way of `Effect`, the fields it writes are those R20 lists for its instruction, and every other
field is unchanged. -/
theorem onlyTheListedInstructionsWriteARegister : Obligations.OnlyTheListedInstructionsWriteARegister := by
  unfold Obligations.OnlyTheListedInstructionsWriteARegister
  intro i s t h
  cases exec_effect h with
  | answer r h1 h2 => simp [h1, h2]
  | writeCell idx data hidx => simp
  | startInt n => simp
  | startFlt v => simp
  | setClock r hr => simp
  | startScan => simp
  | stopScan => simp
  | second => simp
  | showCell hm c _ => simp
  | suspended hm => simp

end Sys2Proof.Machine
end

section
/-! The invariant of every step boundary (10_state.md R22, R33; 41_display_mux.md R125; log 13): it holds at reset, and every
instruction, every slot and so every step keeps it. -/

namespace Sys2Proof.Machine

/-! ### The invariant reads the registers only. -/

theorem boundaryInv_of_registers_eq {s t : State} (h : t.registers = s.registers) (hs : BoundaryInv s) :
    BoundaryInv t := by
  simp only [State.registers, Registers.mk.injEq] at h
  obtain ⟨hwall, -, hsb, hcursor, hmuxOn, hsegOut, hcolOut⟩ := h
  simpa only [BoundaryInv, ClockValid, MuxValid, hwall, hsb, hcursor, hmuxOn, hsegOut, hcolOut] using hs

/-! ### The clock (R22, R150). -/

theorem clockValid_iff {s : State} :
    ClockValid s ↔ s.wall.sec.toNat ≤ 59 ∧ s.wall.min.toNat ≤ 59 ∧ s.wall.hour.toNat ≤ 23 ∧
      1 ≤ s.wall.month.toNat ∧ s.wall.month.toNat ≤ 12 ∧
      1 ≤ s.wall.day.toNat ∧ s.wall.day.toNat ≤ dim s.wall.year.toNat s.wall.month.toNat :=
  validTime_iff

/-- The cascade of TICK1HZ takes a valid clock to a valid clock (R150). -/
theorem clockValid_of_wall_eq_cascade {s t : State} (hs : ClockValid s) (ht : t.wall = cascade s.wall) :
    ClockValid t := by
  obtain ⟨hsec, hmin, hhour, hmonth1, hmonth12, hday1, hday⟩ := clockValid_iff.1 hs
  rw [clockValid_iff, ht]
  rcases cascade_cases hsec hmin hhour with ⟨hlt, he⟩ | ⟨-, hlt, he⟩ | ⟨-, -, hlt, he⟩ | ⟨-, -, -, he⟩
  · have hsec' : (s.wall.sec + 1).toNat ≤ 59 := by bv_omega
    rw [he]
    exact ⟨hsec', hmin, hhour, hmonth1, hmonth12, hday1, hday⟩
  · have hmin' : (s.wall.min + 1).toNat ≤ 59 := by bv_omega
    rw [he]
    exact ⟨Nat.zero_le _, hmin', hhour, hmonth1, hmonth12, hday1, hday⟩
  · have hhour' : (s.wall.hour + 1).toNat ≤ 23 := by bv_omega
    rw [he]
    exact ⟨Nat.zero_le _, Nat.zero_le _, hhour', hmonth1, hmonth12, hday1, hday⟩
  · have hdate := nextDay_valid (w := { s.wall with sec := 0, min := 0, hour := 0 }) hmonth1 hmonth12 hday
    rw [he]
    exact ⟨by simp, by simp, by simp, hdate⟩

/-- A record SETTIME accepts fits the registers it is written to. -/
theorem toNat_wallOf_of_settable {r : TimeRecord} (h : settable r = true) :
    (wallOf r).sec.toNat = r.sec.toNat ∧ (wallOf r).min.toNat = r.min.toNat ∧
      (wallOf r).hour.toNat = r.hour.toNat ∧ (wallOf r).day.toNat = r.day.toNat ∧
      (wallOf r).month.toNat = r.month.toNat ∧ (wallOf r).year.toNat = r.year.toNat := by
  obtain ⟨hsec, hmin, hhour, hmonth1, hmonth12, -, hday⟩ := validTime_iff.1 (settable_iff.1 h).2
  have hdim := dim_bounds r.year.toNat hmonth1 hmonth12
  simp (disch := omega) only [wallOf, BitVec.toNat_setWidth, Nat.mod_eq_of_lt, and_self]

/-- A record SETTIME accepts sets a valid clock (R147). -/
theorem clockValid_of_wall_eq_wallOf {r : TimeRecord} {t : State} (h : settable r = true) (ht : t.wall = wallOf r) :
    ClockValid t := by
  obtain ⟨hsec, hmin, hhour, hday, hmonth, hyear⟩ := toNat_wallOf_of_settable h
  rw [ClockValid, ht, hsec, hmin, hhour, hday, hmonth, hyear]
  exact (settable_iff.1 h).2

/-! ### The multiplexer (R125). -/

/-- MUXON keeps R125 (a) to (c): it only starts the display. -/
theorem muxValid_startScan {s : State} (h : MuxValid s) : MuxValid (respond 0 { s with muxOn := true }) := by
  obtain ⟨hcursor, hcol, -⟩ := h
  exact ⟨hcursor, hcol, nofun⟩

/-- MUXOFF keeps R125 (a) to (c): it leaves the display dark. -/
theorem muxValid_stopScan {s : State} (h : MuxValid s) :
    MuxValid (respond 0 { s with muxOn := false, colOut := 0b000000, segOut := 0x00 }) := by
  obtain ⟨hcursor, -, -⟩ := h
  exact ⟨hcursor, .inl rfl, fun _ => ⟨rfl, rfl⟩⟩

/-- A running TICKMUX establishes R125 (a) to (c), whatever cell was shown before. -/
theorem muxValid_showCell {s : State} (h : s.muxOn = true) (c : CellIdx) (b : Byte) :
    MuxValid { s with cursor := BitVec.ofNat 3 c.val, segOut := b, colOut := 1#6 <<< c.val } := by
  have hc : (BitVec.ofNat 3 c.val).toNat = c.val := by
    rw [BitVec.toNat_ofNat]
    omega
  refine ⟨?_, .inr ?_, fun hoff => ?_⟩
  · exact hc.trans_lt c.isLt
  · simp only [oneHot, hc]
  · rw [h] at hoff
    cases hoff

/-! ### Reset, instructions, slots, steps. -/

/-- Settles O54: 2013-01-01 is a date, the display is dark at cell 0, and the empty buffer is canonical. -/
theorem resetStateMeetsTheInvariant : Obligations.ResetStateMeetsTheInvariant := by
  unfold Obligations.ResetStateMeetsTheInvariant
  have hclock : ClockValid State.reset := by
    unfold ClockValid
    decide
  have hmux : MuxValid State.reset := ⟨by decide, .inl rfl, fun _ => ⟨rfl, rfl⟩⟩
  exact ⟨hclock, hmux, reset_memory_wf⟩

/-- Every instruction keeps the invariant. -/
theorem exec_keeps_boundaryInv {i : Instr} {s t : State} (h : exec i s = .next t) (hs : BoundaryInv s) :
    BoundaryInv t := by
  have ⟨hclock, hmux, hsb⟩ := hs
  cases exec_effect h with
  | answer r _ _ => exact boundaryInv_of_registers_eq rfl hs
  | writeCell idx data hidx => exact ⟨hclock, hmux, write_wf hsb _ data⟩
  | startInt n => exact boundaryInv_of_registers_eq rfl hs
  | startFlt v => exact boundaryInv_of_registers_eq rfl hs
  | setClock r hr => exact ⟨clockValid_of_wall_eq_wallOf hr rfl, hmux, hsb⟩
  | startScan => exact ⟨hclock, muxValid_startScan hmux, hsb⟩
  | stopScan => exact ⟨hclock, muxValid_stopScan hmux, hsb⟩
  | second => exact ⟨clockValid_of_wall_eq_cascade hclock rfl, hmux, hsb⟩
  | showCell hm c _ => exact ⟨hclock, muxValid_showCell hm c _, hsb⟩
  | suspended hm => exact hs

/-- A cell write of a format command keeps the invariant (R188). -/
theorem writeNextCell_keeps_boundaryInv (f : FrameWrite) {s : State} (hs : BoundaryInv s) :
    BoundaryInv (writeNextCell f s) := by
  obtain ⟨hclock, hmux, hsb⟩ := hs
  exact ⟨hclock, hmux, write_wf hsb _ _⟩

/-- Every slot keeps the invariant. -/
theorem runSlot_keeps_boundaryInv {slot : Slot} {s t : State} (h : runSlot slot s = .next t) (hs : BoundaryInv s) :
    BoundaryInv t := by
  rcases runSlot_cases h with ⟨i, cmds, schedule, hexec⟩ | ⟨r, cmds, rfl⟩ | ⟨f, -, rfl⟩ | rfl | rfl | rfl
  · exact exec_keeps_boundaryInv hexec (boundaryInv_of_registers_eq rfl hs)
  · exact boundaryInv_of_registers_eq rfl hs
  · exact writeNextCell_keeps_boundaryInv f hs
  · exact hs
  · exact boundaryInv_of_registers_eq (holdReset_registers s) resetStateMeetsTheInvariant
  · exact boundaryInv_of_registers_eq (holdReset_registers s) resetStateMeetsTheInvariant

/-- Settles O55: a step is a slot run at a state with the same registers, and every slot keeps the invariant. -/
theorem everyStepKeepsTheInvariant : Obligations.EveryStepKeepsTheInvariant := by
  unfold Obligations.EveryStepKeepsTheInvariant
  intro s t hs hstep
  obtain ⟨slot, rest, hslot⟩ := step_cases s
  rw [hslot] at hstep
  exact runSlot_keeps_boundaryInv hstep (boundaryInv_of_registers_eq rfl hs)

/-- Settles O52: the listed values are those of `State.reset` (R33), and RDTIME packs its clock (R148). -/
theorem resetGivesTheListedValues : Obligations.ResetGivesTheListedValues := by
  unfold Obligations.ResetGivesTheListedValues
  have hrecord : (recordOf State.reset.wall State.reset.tz).pack = 0x0007DD0101000000 := by decide
  refine ⟨rfl, rfl, read_nil, rfl, rfl, rfl, rfl, rfl, ?_⟩
  rw [exec_rdtime, hrecord]
  rfl

end Sys2Proof.Machine
end

section
/-! The SegmentBuffer (20_memory.md): in the canonical form, memories that read alike are equal (R50; log 13). -/

namespace Sys2Proof.Machine

theorem read_cons_of_eq {a : Nat} {b : Byte} {m : Memory} {i : CellIdx} (h : i.val = a) :
    Memory.read ((a, b) :: m) i = b := by
  simp [Memory.read, h]

theorem read_cons_of_ne {a : Nat} {b : Byte} {m : Memory} {i : CellIdx} (h : i.val ≠ a) :
    Memory.read ((a, b) :: m) i = m.read i := by
  simp [Memory.read, h.symm]

/-- A memory that begins with a given entry and is canonical shows that entry's byte, which is not the reset byte. -/
theorem exists_read_eq_head {lo a : Nat} {b : Byte} {m : Memory} (h : Memory.wfFrom lo ((a, b) :: m) = true) :
    ∃ i : CellIdx, i.val = a ∧ Memory.read ((a, b) :: m) i = b ∧ b ≠ resetCell := by
  obtain ⟨⟨-, ha, hb⟩, -⟩ := (wfFrom_cons lo a b m).1 h
  exact ⟨⟨a, ha⟩, rfl, read_cons_of_eq rfl, hb⟩

/-- No cell below a canonical memory's first entry differs from the reset byte. -/
theorem head_le_of_read_ne {lo a : Nat} {b : Byte} {m : Memory} (h : Memory.wfFrom lo ((a, b) :: m) = true)
    {i : CellIdx} (hi : Memory.read ((a, b) :: m) i ≠ resetCell) : a ≤ i.val := by
  by_contra hlt
  obtain ⟨⟨-, ha, hb⟩, hm⟩ := (wfFrom_cons lo a b m).1 h
  have hfrom : Memory.wfFrom a ((a, b) :: m) = true := (wfFrom_cons a a b m).2 ⟨⟨le_rfl, ha, hb⟩, hm⟩
  exact hi (read_below hfrom (by omega))

/-- A canonical memory that reads as its reset value everywhere is the empty one. -/
theorem eq_nil_of_read_eq {lo : Nat} {m : Memory} (h : Memory.wfFrom lo m = true)
    (hread : ∀ i, m.read i = resetCell) : m = [] := by
  cases m with
  | nil => rfl
  | cons p m =>
    obtain ⟨i, -, hi, hne⟩ := exists_read_eq_head h
    exact absurd (hi.symm.trans (hread i)) hne

/-- Canonical memories that read alike begin with the same entry: it is the first cell that is not the reset byte. -/
theorem head_eq_of_read_eq {lo a a' : Nat} {b b' : Byte} {m m' : Memory} (h : Memory.wfFrom lo ((a, b) :: m) = true)
    (h' : Memory.wfFrom lo ((a', b') :: m') = true)
    (hread : ∀ i, Memory.read ((a', b') :: m') i = Memory.read ((a, b) :: m) i) : a' = a ∧ b' = b := by
  obtain ⟨i, hi, hb, hne⟩ := exists_read_eq_head h
  obtain ⟨i', hi', hb', hne'⟩ := exists_read_eq_head h'
  have hle : a ≤ a' := hi' ▸ head_le_of_read_ne h (by rwa [← hread, hb'])
  have hge : a' ≤ a := hi ▸ head_le_of_read_ne h' (by rwa [hread, hb])
  have hii : i' = i := Fin.ext (by omega)
  exact ⟨le_antisymm hge hle, by rw [← hb, ← hb', hread, hii]⟩

/-- Canonical memories that begin with the same entry and read alike go on with memories that read alike. -/
theorem tail_read_eq_of_read_eq {lo a : Nat} {b : Byte} {m m' : Memory} (h : Memory.wfFrom lo ((a, b) :: m) = true)
    (h' : Memory.wfFrom lo ((a, b) :: m') = true)
    (hread : ∀ i, Memory.read ((a, b) :: m') i = Memory.read ((a, b) :: m) i) (j : CellIdx) :
    Memory.read m' j = Memory.read m j := by
  by_cases hj : j.val = a
  · have hlt : j.val < a + 1 := by omega
    rw [read_below ((wfFrom_cons _ _ _ _).1 h).2 hlt, read_below ((wfFrom_cons _ _ _ _).1 h').2 hlt]
  · rw [← read_cons_of_ne hj, hread, read_cons_of_ne hj]

/-- Canonical memories that read alike are equal (log 13). -/
theorem eq_of_read_eq {lo : Nat} {m m' : Memory} (h : Memory.wfFrom lo m = true) (h' : Memory.wfFrom lo m' = true)
    (hread : ∀ i, m'.read i = m.read i) : m' = m := by
  induction m generalizing lo m' with
  | nil => exact eq_nil_of_read_eq h' hread
  | cons p m ih =>
    cases m' with
    | nil => exact (eq_nil_of_read_eq h fun i => (hread i).symm).symm
    | cons p' m' =>
      obtain ⟨a, b⟩ := p
      obtain ⟨a', b'⟩ := p'
      obtain ⟨rfl, rfl⟩ := head_eq_of_read_eq h h' hread
      have htail := tail_read_eq_of_read_eq h h' hread
      rw [ih ((wfFrom_cons _ _ _ _).1 h).2 ((wfFrom_cons _ _ _ _).1 h').2 htail]

/-- Settles O13: a read after a write and the canonical form kept are the laws of the SegmentBuffer; uniqueness is
`eq_of_read_eq`. -/
theorem cellsReadBackAndStayCanonical : Obligations.CellsReadBackAndStayCanonical := by
  unfold Obligations.CellsReadBackAndStayCanonical
  intro m hm
  exact ⟨read_write hm, write_wf hm, fun m' hm' hread => eq_of_read_eq hm hm' hread⟩

end Sys2Proof.Machine
end

section
/-! The seconds and the display touch no register in common (20_memory.md R61). -/

namespace Sys2Proof.Machine

/-- The state with other values of the clock registers, WallClock and TZ. -/
def State.atTime (w : WallClock) (tz : BitVec 1) (s : State) : State :=
  { s with wall := w, tz := tz }

theorem exec_tick1hz_atTime (s : State) :
    exec .tick1hz s = .next (s.atTime (cascade s.wall) (dstEvaluate (cascade s.wall) s.tz)) := rfl

/-- An instruction that is not one of the clock's: it neither reads nor sets WallClock or TZ (R20, R61). -/
def OffClock (i : Instr) : Prop :=
  i ≠ .tick1hz ∧ i ≠ .rdtime ∧ i ≠ .rdlocal ∧ ∀ r, i ≠ .settime r

/-- An instruction off the clock leaves the clock registers as they were. -/
theorem exec_keeps_time {i : Instr} (hi : OffClock i) {s t : State} (h : exec i s = .next t) :
    t.wall = s.wall ∧ t.tz = s.tz := by
  obtain ⟨htick, -, -, hset⟩ := hi
  have hclock : ¬ (i = .tick1hz ∨ ∃ r, i = .settime r) := by simp [htick, hset]
  obtain ⟨hwall, htz, -⟩ := onlyTheListedInstructionsWriteARegister i s t h
  exact ⟨not_not.1 (mt hwall hclock), not_not.1 (mt htz hclock)⟩

/-- An instruction off the clock does the same at any time. -/
theorem exec_atTime {i : Instr} (hi : OffClock i) (w : WallClock) (tz : BitVec 1) {s t : State}
    (h : exec i s = .next t) : exec i (s.atTime w tz) = .next (t.atTime w tz) := by
  obtain ⟨htick, hrd, hrdl, hset⟩ := hi
  cases i with
  | tick1hz => exact absurd rfl htick
  | rdtime => exact absurd rfl hrd
  | rdlocal => exact absurd rfl hrdl
  | settime r => exact absurd rfl (hset r)
  | nop => cases h; rfl
  | fmtint n => cases h; rfl
  | fmtflt v => cases h; rfl
  | muxon => cases h; rfl
  | muxoff => cases h; rfl
  | wrcell idx data =>
    by_cases hidx : idx.toNat < 6
    · rw [exec_wrcell hidx] at h ⊢; cases h; rfl
    · rw [exec_wrcell_refused (by omega)] at h ⊢; cases h; rfl
  | rdcell idx =>
    by_cases hidx : idx.toNat < 6
    · rw [exec_rdcell hidx] at h ⊢; cases h; rfl
    · rw [exec_rdcell_refused (by omega)] at h ⊢; cases h; rfl
  | tickmux =>
    have hlt : (s.cursor.toNat + 1) % 6 < 6 := Nat.mod_lt _ (by decide)
    cases hm : s.muxOn with
    | true =>
      rw [exec_tickmux_running hm (c := ⟨_, hlt⟩) rfl] at h
      rw [exec_tickmux_running (s := s.atTime w tz) hm (c := ⟨_, hlt⟩) rfl]
      cases h; rfl
    | false =>
      rw [exec_tickmux_suspended hm] at h
      rw [exec_tickmux_suspended (s := s.atTime w tz) hm]
      cases h; rfl

/-- A cell write of a format command does the same at any time. -/
theorem writeNextCell_atTime (f : FrameWrite) (w : WallClock) (tz : BitVec 1) (s : State) :
    writeNextCell f (s.atTime w tz) = (writeNextCell f s).atTime w tz := rfl

/-- TICK1HZ commutes with every instruction off the clock. -/
theorem tick1hz_commutes {i : Instr} (hi : OffClock i) (s : State) :
    ∃ t, execAll [.tick1hz, i] s = .next t ∧ execAll [i, .tick1hz] s = .next t := by
  obtain ⟨u, hu⟩ := exec_next i s
  obtain ⟨hwall, htz⟩ := exec_keeps_time hi hu
  refine ⟨u.atTime (cascade s.wall) (dstEvaluate (cascade s.wall) s.tz), ?tickFirst, ?tickLast⟩
  case tickFirst =>
    rw [execAll_cons (exec_tick1hz_atTime s), execAll_cons (exec_atTime hi _ _ hu), execAll_nil]
  case tickLast =>
    rw [execAll_cons hu, execAll_cons (exec_tick1hz_atTime u), execAll_nil, hwall, htz]

/-- Settles O12: an instruction off the clock, and the cell write, do the same at any time and keep the time, so the
second may be counted before or after. -/
theorem secondsCommuteWithTheDisplay : Obligations.SecondsCommuteWithTheDisplay := by
  unfold Obligations.SecondsCommuteWithTheDisplay
  refine ⟨?instructions, ?cellWrite⟩
  case instructions =>
    intro i s htick hrd hrdl hset
    exact tick1hz_commutes ⟨htick, hrd, hrdl, hset⟩ s
  case cellWrite =>
    intro f s
    have hwrite := writeNextCell_atTime f (cascade s.wall) (dstEvaluate (cascade s.wall) s.tz) s
    refine ⟨_, exec_tick1hz_atTime s, ?_, hwrite⟩
    rw [hwrite, exec_tick1hz_atTime, writeNextCell_wall, writeNextCell_tz]

end Sys2Proof.Machine
end

section
/-! What the running display shows after any number of refresh ticks (41_display_mux.md R120; 20_memory.md R59;
70_reset_and_hazards.md R264). -/

namespace Sys2Proof.Machine

/-- What `k` refresh ticks of the running display show: the cell `k` places on from CURSOR, modulo 6 (R120). -/
theorem execAll_tickmux_running {s : State} (hm : s.muxOn = true) {k : Nat} (hk : 1 ≤ k) {c : CellIdx}
    (hc : c.val = (s.cursor.toNat + k) % 6) :
    execAll (List.replicate k .tickmux) s =
      .next { s with cursor := BitVec.ofNat 3 c.val, segOut := s.sb.read c, colOut := 1#6 <<< c.val } := by
  induction k, hk using Nat.le_induction generalizing c with
  | base => rw [List.replicate_one, execAll_cons (exec_tickmux_running hm hc), execAll_nil]
  | succ k hk ih =>
    have hlt : (s.cursor.toNat + k) % 6 < 6 := Nat.mod_lt _ (by decide)
    have hnext : c.val = ((BitVec.ofNat 3 ((s.cursor.toNat + k) % 6)).toNat + 1) % 6 := by
      rw [cursor_advance_toNat, hc]
      omega
    rw [List.replicate_succ', execAll_append (ih (c := ⟨_, hlt⟩) rfl),
      execAll_cons (exec_tickmux_running (by exact hm) (by exact hnext)), execAll_nil]

/-- Settles O17: WRCELL leaves the lines alone, and the `k` ticks read the written cell back. -/
theorem writtenCellShowsAtItsNextTurn : Obligations.WrittenCellShowsAtItsNextTurn := by
  unfold Obligations.WrittenCellShowsAtItsNextTurn
  intro idx data s k hidx hwf hm hk hturn
  have hshow := execAll_tickmux_running (s := respond 0 { s with sb := s.sb.write ⟨idx.toNat, hidx⟩ data }) hm hk
    (c := ⟨idx.toNat, hidx⟩) hturn.symm
  refine ⟨_, _, exec_wrcell hidx data s, rfl, hshow, ?_, rfl⟩
  simp [read_write hwf]

end Sys2Proof.Machine
end

section
/-! The decoder and the encoder agree (30_encoding.md R70 to R79): which instruction each opcode names, and that a word names
it exactly when the bits of its `must_be_zero` column are zero. -/

namespace Sys2Proof

open Sys2Proof.Machine

/-! ### Cutting a word in two. -/

theorem append_eq_zero_iff {n m : Nat} {a : BitVec n} {b : BitVec m} : a ++ b = 0#(n + m) ↔ a = 0#n ∧ b = 0#m := by
  rw [← BitVec.zero_append_zero]
  constructor
  · intro h
    exact ⟨by simpa only [BitVec.extractLsb'_append_eq_left] using congrArg (BitVec.extractLsb' m n) h,
      by simpa only [BitVec.extractLsb'_append_eq_right] using congrArg (BitVec.extractLsb' 0 m) h⟩
  · rintro ⟨rfl, rfl⟩
    rfl

/-- A mask put together from two parts tests the two parts of a word. -/
theorem and_eq_zero_iff {n m : Nat} (v : BitVec (n + m)) {mask : BitVec (n + m)} {a : BitVec n} {b : BitVec m}
    (hmask : mask = a ++ b) :
    v &&& mask = 0#(n + m) ↔ v.extractLsb' m n &&& a = 0#n ∧ v.extractLsb' 0 m &&& b = 0#m := by
  rw [← append_eq_zero_iff, ← BitVec.and_append, BitVec.extractLsb'_append_extractLsb', hmask]

/-- A mask of the high bits alone tests that they are zero. -/
theorem and_eq_zero_iff_of_high {n m : Nat} (v : BitVec (n + m)) {mask : BitVec (n + m)}
    (hmask : mask = BitVec.allOnes n ++ 0#m) : v &&& mask = 0#(n + m) ↔ v.extractLsb' m n = 0#n := by
  simp only [and_eq_zero_iff v hmask, BitVec.and_allOnes, BitVec.and_zero, and_true]

/-! ### The reserved bits of each format, as the table gives them and as the decoder tests them (R71, R74). -/

theorem and_allOnes_eq_zero_iff (arg : Arg) : arg &&& 0xFFFFFFFFFFFFFFFF = 0 ↔ arg = 0 := by
  rw [show (0xFFFFFFFFFFFFFFFF : Arg) = BitVec.allOnes 64 by decide, BitVec.and_allOnes]

theorem and_mustBeZero_wrcell (arg : Arg) : arg &&& mustBeZero 1 = 0 ↔ arg.extractLsb' 11 53 = 0 :=
  and_eq_zero_iff_of_high (n := 53) (m := 11) arg (by decide)

theorem and_mustBeZero_rdcell (arg : Arg) :
    arg &&& mustBeZero 2 = 0 ↔ arg.extractLsb' 11 53 = 0 ∧ arg.extractLsb' 0 8 = 0 := by
  have hword := and_eq_zero_iff (n := 53) (m := 11) arg (mask := mustBeZero 2) (a := BitVec.allOnes 53)
    (b := 0#3 ++ BitVec.allOnes 8) (by decide)
  have hlow := and_eq_zero_iff (n := 3) (m := 8) (arg.extractLsb' 0 11) (a := 0#3) (b := BitVec.allOnes 8) rfl
  rw [BitVec.and_zero, BitVec.and_allOnes, BitVec.extractLsb'_extractLsb'_of_le (by decide)] at hlow
  rw [BitVec.and_allOnes, hlow] at hword
  exact hword.trans (by simp)

theorem and_mustBeZero_fmtflt (arg : Arg) : arg &&& mustBeZero 4 = 0 ↔ arg.extractLsb' 32 32 = 0 :=
  and_eq_zero_iff_of_high (n := 32) (m := 32) arg (by decide)

theorem and_mustBeZero_settime (arg : Arg) : arg &&& mustBeZero 5 = 0 ↔ arg.extractLsb' 57 7 = 0 :=
  and_eq_zero_iff_of_high (n := 7) (m := 57) arg (by decide)

/-! ### The instruction an opcode names. -/

/-- `Names arg op i`: the opcode `op` is that of `i`, and the fields of `arg` are its operands, whatever the reserved bits
of `arg` hold. One constructor per row of R72. -/
inductive Names (arg : Arg) : Nat → Instr → Prop where
  | nop : Names arg 0 .nop
  | wrcell : Names arg 1 (.wrcell (arg.extractLsb' 8 3) (arg.extractLsb' 0 8))
  | rdcell : Names arg 2 (.rdcell (arg.extractLsb' 8 3))
  | fmtint : Names arg 3 (.fmtint arg)
  | fmtflt : Names arg 4 (.fmtflt (arg.extractLsb' 0 32))
  | settime : Names arg 5 (.settime (TimeRecord.unpack arg))
  | rdtime : Names arg 6 .rdtime
  | rdlocal : Names arg 7 .rdlocal
  | muxon : Names arg 8 .muxon
  | muxoff : Names arg 9 .muxoff

/-- The first check of R79. -/
theorem decodeCommand_reservedOp {w : CmdWord} (hop : 10 ≤ (opOf w).toNat) : decodeCommand w = .error .illegalOp := by
  have hlt := (opOf w).isLt
  unfold decodeCommand
  generalize (opOf w).toNat = op at hop hlt
  interval_cases op <;> rfl

/-- The second check of R79: an opcode that is not reserved names an instruction, and the word decodes to it exactly when
its reserved bits are zero. -/
theorem decodeCommand_eq_ite {w : CmdWord} (hop : (opOf w).toNat < 10) :
    ∃ i, Names (argOf w) (opOf w).toNat i ∧
      decodeCommand w = if argOf w &&& mustBeZero (opOf w).toNat = 0 then .ok i else .error .illegalArg := by
  have hz (i : Instr) : formatZ (argOf w) i =
      if argOf w &&& 0xFFFFFFFFFFFFFFFF = 0 then .ok i else .error .illegalArg := by
    simp only [and_allOnes_eq_zero_iff]
    rfl
  unfold decodeCommand
  generalize (opOf w).toNat = op at hop
  interval_cases op
  · exact ⟨_, .nop, hz _⟩
  · exact ⟨_, .wrcell, by simp only [and_mustBeZero_wrcell]; rfl⟩
  · exact ⟨_, .rdcell, by simp only [and_mustBeZero_rdcell]; rfl⟩
  · exact ⟨_, .fmtint, (if_pos (BitVec.and_zero)).symm⟩
  · exact ⟨_, .fmtflt, by simp only [and_mustBeZero_fmtflt]; rfl⟩
  · exact ⟨_, .settime, by simp only [and_mustBeZero_settime]; rfl⟩
  · exact ⟨_, .rdtime, hz _⟩
  · exact ⟨_, .rdlocal, hz _⟩
  · exact ⟨_, .muxon, hz _⟩
  · exact ⟨_, .muxoff, hz _⟩

/-- A word that decodes is not reserved, its reserved bits are zero, and it decodes to what its opcode names. -/
theorem names_of_decodeCommand {w : CmdWord} {i : Instr} (h : decodeCommand w = .ok i) :
    Names (argOf w) (opOf w).toNat i ∧ argOf w &&& mustBeZero (opOf w).toNat = 0 := by
  rcases Nat.lt_or_ge (opOf w).toNat 10 with hop | hop
  · obtain ⟨j, hj, hdec⟩ := decodeCommand_eq_ite hop
    rw [hdec] at h
    split at h
    · cases h
      exact ⟨hj, ‹_›⟩
    · cases h
  · rw [decodeCommand_reservedOp hop] at h
    cases h

/-- An argument is its reserved bits, its index and its data in a row (R71, formats CW and CR). -/
theorem append_fields_cell (arg : Arg) : arg.extractLsb' 11 53 ++ arg.extractLsb' 8 3 ++ arg.extractLsb' 0 8 = arg := by
  rw [BitVec.extractLsb'_append_extractLsb'_eq_extractLsb' (by decide)]
  exact BitVec.extractLsb'_append_extractLsb' (w := 56) (len := 8)

/-- An argument whose reserved bits are zero is put together again from the fields of the instruction it names. -/
theorem Names.encode_eq {op : Nat} {arg : Arg} {i : Instr} (h : Names arg op i) (hz : arg &&& mustBeZero op = 0) :
    encode i = cmdWord (BitVec.ofNat 4 op) arg := by
  cases h with
  | wrcell =>
    have hfields := append_fields_cell arg
    rw [(and_mustBeZero_wrcell arg).1 hz] at hfields
    exact congrArg (cmdWord 1) hfields
  | rdcell =>
    have hfields := append_fields_cell arg
    obtain ⟨hhigh, hlow⟩ := (and_mustBeZero_rdcell arg).1 hz
    rw [hhigh, hlow] at hfields
    exact congrArg (cmdWord 2) hfields
  | fmtint => rfl
  | fmtflt =>
    have hfields : arg.extractLsb' 32 32 ++ arg.extractLsb' 0 32 = arg := BitVec.extractLsb'_append_extractLsb'
    rw [(and_mustBeZero_fmtflt arg).1 hz] at hfields
    exact congrArg (cmdWord 4) hfields
  | settime => exact congrArg (cmdWord 5) (pack_unpack ((and_mustBeZero_settime arg).1 hz))
  | nop => rw [(and_allOnes_eq_zero_iff arg).1 hz]; rfl
  | rdtime => rw [(and_allOnes_eq_zero_iff arg).1 hz]; rfl
  | rdlocal => rw [(and_allOnes_eq_zero_iff arg).1 hz]; rfl
  | muxon => rw [(and_allOnes_eq_zero_iff arg).1 hz]; rfl
  | muxoff => rw [(and_allOnes_eq_zero_iff arg).1 hz]; rfl

/-- Settles O2: a word that decodes names its instruction and has its reserved bits zero, so that the instruction's fields
put it together again. -/
theorem encodeOfDecodeIsTheWord : Obligations.EncodeOfDecodeIsTheWord := by
  unfold Obligations.EncodeOfDecodeIsTheWord
  intro w i h
  obtain ⟨hi, hz⟩ := names_of_decodeCommand h
  rw [hi.encode_eq hz, BitVec.ofNat_toNat, BitVec.setWidth_eq, cmdWord, append_opOf_argOf]

/-! ### The word of an instruction reads back. -/

/-- The three fields of an argument of format CW or CR (R71). -/
theorem fields_of_append_cell (idx : BitVec 3) (data : Byte) :
    (0#53 ++ idx ++ data).extractLsb' 11 53 = 0#53 ∧ (0#53 ++ idx ++ data).extractLsb' 8 3 = idx ∧
      (0#53 ++ idx ++ data).extractLsb' 0 8 = data := by
  refine ⟨?_, ?_, BitVec.extractLsb'_append_eq_right⟩
  · rw [BitVec.extractLsb'_append_eq_of_le (by decide)]
    exact BitVec.extractLsb'_append_eq_left
  · rw [BitVec.extractLsb'_append_eq_of_le (by decide)]
    exact BitVec.extractLsb'_append_eq_right

theorem formatCW_append (idx : BitVec 3) (data : Byte) : formatCW (0#53 ++ idx ++ data) = .ok (.wrcell idx data) := by
  obtain ⟨hhigh, hidx, hdata⟩ := fields_of_append_cell idx data
  simp only [formatCW, hhigh, hidx, hdata]
  rfl

theorem formatCR_append (idx : BitVec 3) : formatCR (0#53 ++ idx ++ 0#8) = .ok (.rdcell idx) := by
  obtain ⟨hhigh, hidx, hlow⟩ := fields_of_append_cell idx 0#8
  simp only [formatCR, hhigh, hidx, hlow]
  rfl

theorem formatF_append (fval : BitVec 32) : formatF (0#32 ++ fval) = .ok (.fmtflt fval) := by
  have hhigh : (0#32 ++ fval).extractLsb' 32 32 = 0#32 := BitVec.extractLsb'_append_eq_left
  have hfval : (0#32 ++ fval).extractLsb' 0 32 = fval := BitVec.extractLsb'_append_eq_right
  simp only [formatF, hhigh, hfval]
  rfl

theorem formatT_pack (r : TimeRecord) : formatT r.pack = .ok (.settime r) := by
  have hhigh : r.pack.extractLsb' 57 7 = 0#7 := by
    unfold TimeRecord.pack
    iterate 6 rw [BitVec.extractLsb'_append_eq_of_le (by decide)]
    exact BitVec.extractLsb'_append_eq_left
  simp only [formatT, hhigh, unpack_pack]
  rfl

/-- A command word put together from its two fields stands for the one instruction it decodes to. -/
theorem decode_cmdWord {op : BitVec 4} {arg : Arg} {i : Instr} (h : decodeCommand (op ++ arg) = .ok i) :
    decode (cmdWord op arg) = .ok [i] := by
  simp only [decode, cmdWord, h]
  rfl

/-- Settles O1: opcode by opcode, the format reads the operands back from where the encoder put them. -/
theorem decodeOfEncodeIsTheInstruction : Obligations.DecodeOfEncodeIsTheInstruction := by
  unfold Obligations.DecodeOfEncodeIsTheInstruction
  intro i
  cases i with
  | wrcell idx data => exact decode_cmdWord ((decodeCommand_append 1 _).trans (formatCW_append idx data))
  | rdcell idx => exact decode_cmdWord ((decodeCommand_append 2 _).trans (formatCR_append idx))
  | fmtint ival => exact decode_cmdWord ((decodeCommand_append 3 _).trans rfl)
  | fmtflt fval => exact decode_cmdWord ((decodeCommand_append 4 _).trans (formatF_append fval))
  | settime r => exact decode_cmdWord ((decodeCommand_append 5 _).trans (formatT_pack r))
  | nop => rfl
  | rdtime => rfl
  | rdlocal => rfl
  | muxon => rfl
  | muxoff => rfl
  | tick1hz => rfl
  | tickmux => rfl

/-- Settles O3: the decoder evaluates to the listed instruction on each of the nine words. -/
theorem wordsOfTheSpecDecodeAsWritten : Obligations.WordsOfTheSpecDecodeAsWritten := by
  unfold Obligations.WordsOfTheSpecDecodeAsWritten
  exact ⟨rfl, rfl, rfl, rfl, rfl, rfl, rfl, rfl, rfl⟩

end Sys2Proof
end

section
/-! A word placed for the next step (log 6), and a word the command agent refuses (30_encoding.md R73, R79). -/

namespace Sys2Proof.Machine

/-- The command agent's turn with a word that does not decode: the word is taken and refused (R79, R230). -/
theorem step_command_refused {s : State} {w : CmdWord} {ws : List CmdWord} {rest : List Slot} {r : Reject}
    (hready : Ready s) (hsched : s.schedule = .command :: rest) (hcmds : s.cmds = w :: ws)
    (hdec : decodeCommand w = .error r) :
    step s = .next { s with cmds := ws, schedule := rest, rsp := some ⟨Reject.status r, 0⟩ } := by
  obtain ⟨hrst, hflight⟩ := hready
  rw [step_of_schedule hsched, runSlot_accept (by simpa using hrst) (by simpa using hflight) (by simpa using hcmds),
    commandStep_error hdec]
  rfl

/-- Settles O4: a reserved opcode does not decode, and a word that decodes is the word of its instruction, by O2. -/
theorem reservedOpcodesAnswerIllegalOp : Obligations.ReservedOpcodesAnswerIllegalOp := by
  unfold Obligations.ReservedOpcodesAnswerIllegalOp
  refine ⟨?refused, ?sameOpcode⟩
  case refused =>
    intro s w ws rest hready hsched hcmds hop
    exact step_command_refused hready hsched hcmds (decodeCommand_reservedOp hop)
  case sameOpcode =>
    intro w i hdec
    refine ⟨argOf w, ?_⟩
    rw [encodeOfDecodeIsTheWord w i hdec, cmdWord, append_opOf_argOf]

/-- A table word of the command port is a command word (R70). -/
theorem decodeCommand_of_decodeTableWord {nbits w : Nat} {i : Instr} (hbits : nbits > 8)
    (h : decodeTableWord nbits w = some i) : decodeCommand (BitVec.ofNat 68 w) = .ok i := by
  rw [decodeTableWord, if_neg (by omega)] at h
  split at h
  · split at h
    · cases h
      assumption
    · cases h
  · cases h

/-- A table word of the tick inputs below 3 holds one event (R77). -/
theorem decodeEvents_of_decodeTableWord {nbits w : Nat} {i : Instr} (hbits : nbits ≤ 8) (hw : w < 3)
    (h : decodeTableWord nbits w = some i) : decodeEvents (BitVec.ofNat 2 w) = [i] := by
  rw [decodeTableWord, if_pos hbits, if_pos (by omega)] at h
  interval_cases w
  · cases h
  · cases h
    rfl
  · cases h
    rfl

/-- Settles O10: the word is placed in the slot the next step takes, where it runs as what it decodes to. -/
theorem fetchedTableWordsRun : Obligations.FetchedTableWordsRun := by
  unfold Obligations.FetchedTableWordsRun
  intro s nbits w i hdec
  refine ⟨?command, ?event⟩
  case command =>
    intro hbits
    rw [State.withFetchWord, if_neg (by omega),
      step_command ⟨rfl, rfl⟩ rfl rfl (decodeCommand_of_decodeTableWord hbits hdec)]
  case event =>
    intro hbits hw
    rw [State.withFetchWord, if_pos hbits, step_events rfl rfl,
      eventTurn_of_decodeEvents_singleton (decodeEvents_of_decodeTableWord hbits hw hdec)]
    rfl

end Sys2Proof.Machine
end

section
/-! The time record SETTIME accepts is the one RDTIME answers (42_rtc.md R147, R148). -/

namespace Sys2Proof.Machine

/-- An accepted record fits the registers, which give it back. -/
theorem recordOf_wallOf {r : TimeRecord} (h : settable r = true) : recordOf (wallOf r) r.tz = r := by
  obtain ⟨hsec, hmin, hhour, hday, hmonth, -⟩ := toNat_wallOf_of_settable h
  have hwiden {n : Nat} {a : BitVec n} {b : BitVec 8} (hn : n ≤ 8) (hab : a.toNat = b.toNat) : a.setWidth 8 = b :=
    BitVec.eq_of_toNat_eq (by rw [BitVec.toNat_setWidth_of_le hn, hab])
  rw [recordOf, hwiden (by decide) hsec, hwiden (by decide) hmin, hwiden (by decide) hhour, hwiden (by decide) hday,
    hwiden (by decide) hmonth]
  rfl

/-- Settles O36: RDTIME packs the record the registers hold, which is the one SETTIME was given. -/
theorem settimeThenRdtimeGivesTheRecordBack : Obligations.SettimeThenRdtimeGivesTheRecordBack := by
  unfold Obligations.SettimeThenRdtimeGivesTheRecordBack
  intro r s h
  rw [execAll_cons (exec_settime h s), execAll_cons (exec_rdtime _), execAll_nil]
  refine ⟨_, rfl, ?_, unpack_pack r⟩
  simp [recordOf_wallOf h]

end Sys2Proof.Machine
end

section
/-! Drawing a frame with six WRCELL commands (30_encoding.md R80; 40_segment_model.md R103). -/

namespace Sys2Proof.Machine

/-- The SegmentBuffer with the six cells of a frame written, ascending (R80). -/
def Memory.draw (m : Memory) (c : Frame) : Memory :=
  (((((m.write 0 c.c0).write 1 c.c1).write 2 c.c2).write 3 c.c3).write 4 c.c4).write 5 c.c5

theorem execAll_drawFrame (c : Frame) (s : State) :
    execAll (drawFrame c) s = .next { s with sb := s.sb.draw c, rsp := some ⟨.ok, 0⟩ } := rfl

theorem draw_wf {m : Memory} (h : m.wf = true) (c : Frame) : (m.draw c).wf = true :=
  write_wf (write_wf (write_wf (write_wf (write_wf (write_wf h _ _) _ _) _ _) _ _) _ _) _ _

theorem read_draw {m : Memory} (h : m.wf = true) (c : Frame) (i : CellIdx) : (m.draw c).read i = c.cell i := by
  have h0 := write_wf h 0 c.c0
  have h1 := write_wf h0 1 c.c1
  have h2 := write_wf h1 2 c.c2
  have h3 := write_wf h2 3 c.c3
  have h4 := write_wf h3 4 c.c4
  rw [Memory.draw, read_write h4, read_write h3, read_write h2, read_write h1, read_write h0, read_write h]
  match i with
  | 0 | 1 | 2 | 3 | 4 | 5 => rfl

/-- The cells of a frame are the bytes it was made of, and blank past them (R103). -/
theorem cell_frameOf (l : List Byte) (i : CellIdx) : (frameOf l).cell i = l.getD i.val blank := by
  match i with
  | 0 | 1 | 2 | 3 | 4 | 5 => rfl

/-- The glyphs of a text in order: byte `i` is that of character `i`, and there is none past the text. -/
theorem getD_of_mapM_glyph {cs : List Char} {bs : List Byte} (h : cs.mapM glyph = some bs) (i : Nat) :
    some (bs.getD i blank) = cs[i]?.elim (some 0x00) glyph := by
  induction cs generalizing bs i with
  | nil => cases h; rfl
  | cons c cs ih =>
    rw [List.mapM_cons] at h
    obtain ⟨b, hb, h⟩ := Option.bind_eq_some_iff.1 h
    obtain ⟨tail, htail, h⟩ := Option.bind_eq_some_iff.1 h
    cases h
    cases i with
    | zero => exact hb.symm
    | succ i => exact ih htail i

/-- WRMSG draws the frame of the text's glyphs (R80, R103). -/
theorem exists_glyphs_of_wrmsg {text : String} {is : List Instr} (h : wrmsg text = some is) :
    ∃ bs, text.toList.mapM glyph = some bs ∧ is = drawFrame (frameOf bs) := by
  obtain ⟨c, hmsg, rfl⟩ := Option.map_eq_some_iff.1 h
  unfold msg at hmsg
  split at hmsg
  · obtain ⟨bs, hbs, rfl⟩ := Option.map_eq_some_iff.1 hmsg
    exact ⟨bs, hbs, rfl⟩
  · cases hmsg

/-- A frame of blanks empties the SegmentBuffer. -/
theorem draw_blank {m : Memory} (h : m.wf = true) : m.draw (frameOf []) = [] :=
  eq_nil_of_read_eq (draw_wf h _) fun i => (read_draw h _ i).trans (cell_frameOf [] i)

/-- Settles O20: WRMSG and CLRBUF each draw a frame, that of the text's glyphs and that of none. -/
theorem messagesAreDrawnFromTheLeadingCell : Obligations.MessagesAreDrawnFromTheLeadingCell := by
  unfold Obligations.MessagesAreDrawnFromTheLeadingCell
  refine ⟨?message, ?clear⟩
  case message =>
    intro text is s hmsg hwf
    obtain ⟨bs, hbs, rfl⟩ := exists_glyphs_of_wrmsg hmsg
    refine ⟨_, execAll_drawFrame _ s, rfl, fun i => ?_⟩
    rw [read_draw hwf, cell_frameOf, getD_of_mapM_glyph hbs]
  case clear =>
    intro s hwf
    have hrun := execAll_drawFrame (frameOf []) s
    rw [draw_blank hwf] at hrun
    exact ⟨_, hrun, rfl⟩

end Sys2Proof.Machine
end

section
/-! The decode order of a command word, and the response every legal command comes to (30_encoding.md R74, R79;
44_fmt_int.md R188). -/

namespace Sys2Proof

open Sys2Proof.Machine

/-- The field ranges read from a word are those of the instruction its opcode names (R54, R76). -/
theorem Names.wf_iff {w : CmdWord} {i : Instr} (h : Names (argOf w) (opOf w).toNat i) :
    i.wf = true ↔ FieldsInRange w := by
  have hfield {start len : Nat} (hle : start + len ≤ 64) :
      w.extractLsb' start len = (argOf w).extractLsb' start len := (BitVec.extractLsb'_extractLsb'_of_le hle).symm
  unfold FieldsInRange
  simp (disch := decide) only [hfield]
  generalize (opOf w).toNat = op at h
  cases h with
  | wrcell => simp [Instr.wf]
  | rdcell => simp [Instr.wf]
  | settime => simp [Instr.wf, settable_iff, TimeRecord.unpack]
  | nop | fmtint | fmtflt | rdtime | rdlocal | muxon | muxoff => simp [Instr.wf]

/-- A command out of range is refused (R54, R74, R147). -/
theorem Names.exec_illegalArg {op : Nat} {arg : Arg} {i : Instr} (h : Names arg op i) (hwf : i.wf ≠ true) (s : State) :
    exec i s = .next (raise .illegalArg s) := by
  cases h with
  | wrcell => exact exec_wrcell_refused (by simpa [Instr.wf] using hwf) _ s
  | rdcell => exact exec_rdcell_refused (by simpa [Instr.wf] using hwf) s
  | settime => exact exec_settime_refused (by simpa [Instr.wf] using hwf) s
  | nop | fmtint | fmtflt | rdtime | rdlocal | muxon | muxoff => exact absurd rfl hwf

/-- A command in range responds OK in its own step or, if it is a format command, puts a frame in flight (R75, R188). -/
theorem Names.exec_ok {op : Nat} {arg : Arg} {i : Instr} (h : Names arg op i) (hwf : i.wf = true) (s : State) :
    (op ≠ 3 ∧ op ≠ 4 ∧ ∃ t d, exec i s = .next t ∧ t.rsp = some ⟨.ok, d⟩) ∨
      ((op = 3 ∨ op = 4) ∧ ∃ c, exec i s = .next (startFormat c s)) := by
  cases h with
  | fmtint => exact .inr ⟨.inl rfl, _, exec_fmtint _ s⟩
  | fmtflt => exact .inr ⟨.inr rfl, _, exec_fmtflt _ s⟩
  | nop => exact .inl ⟨nofun, nofun, _, _, exec_nop s, rfl⟩
  | wrcell => exact .inl ⟨nofun, nofun, _, _, exec_wrcell (Nat.lt_succ_of_le (of_decide_eq_true hwf)) _ s, rfl⟩
  | rdcell => exact .inl ⟨nofun, nofun, _, _, exec_rdcell (Nat.lt_succ_of_le (of_decide_eq_true hwf)) s, rfl⟩
  | settime => exact .inl ⟨nofun, nofun, _, _, exec_settime hwf s, rfl⟩
  | rdtime => exact .inl ⟨nofun, nofun, _, _, exec_rdtime s, rfl⟩
  | rdlocal => exact .inl ⟨nofun, nofun, _, _, exec_rdlocal s, rfl⟩
  | muxon => exact .inl ⟨nofun, nofun, _, _, exec_muxon s, rfl⟩
  | muxoff => exact .inl ⟨nofun, nofun, _, _, exec_muxoff s, rfl⟩

end Sys2Proof

namespace Sys2Proof.Machine

/-! ### Runs without a response. -/

/-- `k` steps take `s` to `t` and none of them gives a response. -/
structure QuietRun (k : Nat) (s t : State) : Prop where
  run : runSteps k s = .next t
  quiet : ∀ j u, 0 < j → j ≤ k → runSteps j s = .next u → u.rsp = none

theorem quietRun_zero (s : State) : QuietRun 0 s s where
  run := rfl
  quiet j u hj hle := absurd hle (by omega)

theorem quietRun_one {s t : State} (h : step s = .next t) (ht : t.rsp = none) : QuietRun 1 s t where
  run := runSteps_succ h 0
  quiet j u hj hle hu := by
    obtain rfl : j = 1 := by omega
    rw [runSteps_succ h] at hu
    cases hu
    exact ht

theorem QuietRun.trans {j k : Nat} {s t u : State} (h : QuietRun j s t) (h' : QuietRun k t u) :
    QuietRun (j + k) s u where
  run := (runSteps_add h.run k).trans h'.run
  quiet i v hi hle hv := by
    rcases Nat.lt_or_ge j i with hji | hij
    · obtain ⟨n, rfl⟩ := Nat.exists_eq_add_of_le hji.le
      rw [runSteps_add h.run] at hv
      exact h'.quiet n v (by omega) (by omega) hv
    · exact h.quiet i v hi hij hv

/-- Within `n` steps from `s` there is a response, the first one is OK, and the host's words waiting then are `ws`. -/
def RespondsWithin (n : Nat) (ws : List CmdWord) (s : State) : Prop :=
  ∃ k t d, k ≤ n ∧ runSteps k s = .next t ∧ t.rsp = some ⟨.ok, d⟩ ∧ t.cmds = ws ∧
    ∀ j u, 0 < j → j < k → runSteps j s = .next u → u.rsp = none

theorem respondsWithin_of_step {n : Nat} {ws : List CmdWord} {s t : State} {d : BitVec 64} (h : step s = .next t)
    (hrsp : t.rsp = some ⟨.ok, d⟩) (hcmds : t.cmds = ws) (hn : 1 ≤ n) : RespondsWithin n ws s :=
  ⟨1, t, d, hn, runSteps_succ h 0, hrsp, hcmds, fun j u hj hlt => absurd hlt (by omega)⟩

theorem RespondsWithin.mono {n n' : Nat} {ws : List CmdWord} {s : State} (h : RespondsWithin n ws s) (hn : n ≤ n') :
    RespondsWithin n' ws s := by
  obtain ⟨k, t, d, hk, h⟩ := h
  exact ⟨k, t, d, hk.trans hn, h⟩

/-- A run without a response may come before. -/
theorem RespondsWithin.after {j n : Nat} {ws : List CmdWord} {s t : State} (h : RespondsWithin n ws t)
    (hq : QuietRun j s t) : RespondsWithin (j + n) ws s := by
  obtain ⟨k, u, d, hk, hrun, hrsp, hcmds, hquiet⟩ := h
  refine ⟨j + k, u, d, by omega, (runSteps_add hq.run k).trans hrun, hrsp, hcmds, fun i v hi hlt hv => ?_⟩
  rcases Nat.lt_or_ge j i with hji | hij
  · obtain ⟨m, rfl⟩ := Nat.exists_eq_add_of_le hji.le
    rw [runSteps_add hq.run] at hv
    exact hquiet m v (by omega) (by omega) hv
  · exact hq.quiet i v hi hij hv

/-! ### The write-out of a format command among event words (R188). -/

/-- Reset is released, the write-out `f` is in flight, the host's words `ws` wait, and the slots `sched` come next. -/
structure WritingOut (f : FrameWrite) (ws : List CmdWord) (sched : List Slot) (s : State) : Prop where
  rstN : s.rstN = true
  flight : s.flight = some f
  cmds : s.cmds = ws
  schedule : s.schedule = sched

section
variable {f : FrameWrite} {ws : List CmdWord} {sched rest : List Slot} {s : State}

/-- A step that is a tick gives no response and leaves the write-out and the inputs alone (R20, R234). -/
theorem WritingOut.quietRun_tick {i : Instr} {s' : State} (hs' : WritingOut f ws rest s') (hrsp' : s'.rsp = none)
    (hstep : step s = exec i s') (hi : i = .tick1hz ∨ i = .tickmux) :
    ∃ t, QuietRun 1 s t ∧ WritingOut f ws rest t := by
  obtain ⟨t, ht⟩ := exec_next i s'
  obtain ⟨-, -, -, -, -, -, -, hflight, hrsp, hcmds, hsched, hrst⟩ :=
    onlyTheListedInstructionsWriteARegister i s' t ht
  have hformat : ¬ ((∃ n, i = .fmtint n) ∨ ∃ v, i = .fmtflt v) := by rcases hi with rfl | rfl <;> simp
  have hcommand : ¬ (i ≠ .tick1hz ∧ i ≠ .tickmux) := by rcases hi with rfl | rfl <;> simp
  exact ⟨t, quietRun_one (hstep.trans ht) ((not_not.1 (mt hrsp hcommand)).trans hrsp'), hrst.trans hs'.rstN,
    (not_not.1 (mt hflight hformat)).trans hs'.flight, hcmds.trans hs'.cmds, hsched.trans hs'.schedule⟩

/-- The write-out once a slot is taken off the schedule. -/
theorem WritingOut.takeSlot (hs : WritingOut f ws sched s) (rest : List Slot) :
    WritingOut f ws rest (afterSlot rest s) :=
  ⟨hs.rstN, hs.flight, hs.cmds, rfl⟩

/-- The steps of an event word give no response and leave the write-out alone (R234). -/
theorem WritingOut.quietRun_eventWord {e : EvtWord} (hs : WritingOut f ws (.events e :: rest) s) :
    ∃ t, QuietRun (eventSteps e) s t ∧ WritingOut f ws rest t := by
  have hstep := step_events hs.rstN hs.schedule
  rcases eventWord_cases e with rfl | rfl | rfl | rfl
  · exact ⟨_, quietRun_one hstep rfl, hs.takeSlot rest⟩
  · exact (hs.takeSlot rest).quietRun_tick rfl (hstep.trans (eventTurn_second _)) (.inl rfl)
  · exact (hs.takeSlot rest).quietRun_tick rfl (hstep.trans (eventTurn_refresh _)) (.inr rfl)
  · obtain ⟨t, hst, ht⟩ := (hs.takeSlot (.events 0b10 :: rest)).quietRun_tick rfl
      (hstep.trans (eventTurn_both _)) (.inl rfl)
    obtain ⟨u, htu, hu⟩ := (ht.takeSlot rest).quietRun_tick rfl
      ((step_events ht.rstN ht.schedule).trans (eventTurn_refresh _)) (.inr rfl)
    exact ⟨u, hst.trans htu, hu⟩

theorem WritingOut.quietRun_eventWords {es : List EvtWord} (hs : WritingOut f ws (es.map .events ++ rest) s) :
    ∃ t, QuietRun (es.map eventSteps).sum s t ∧ WritingOut f ws rest t := by
  induction es generalizing s with
  | nil => exact ⟨s, quietRun_zero s, hs⟩
  | cons e es ih =>
    obtain ⟨t, hst, ht⟩ := hs.quietRun_eventWord
    obtain ⟨u, htu, hu⟩ := ih ht
    exact ⟨u, by simpa using hst.trans htu, hu⟩

/-- A turn of the command agent writes the next cell (R188). -/
theorem WritingOut.step_command (hs : WritingOut f ws (.command :: rest) s) :
    step s = .next (writeNextCell f (afterSlot rest s)) := by
  rw [step_of_schedule hs.schedule, runSlot_busy (by exact hs.rstN) (by exact hs.flight)]

/-- The write of a cell before cell 5 gives no response (R188; log 4). -/
theorem WritingOut.quietRun_writeCell (hs : WritingOut f ws (.command :: rest) s) (hnext : f.next.val + 1 < 6) :
    ∃ t, QuietRun 1 s t ∧ WritingOut ⟨f.frame, ⟨f.next.val + 1, hnext⟩⟩ ws rest t :=
  ⟨_, quietRun_one hs.step_command (by simp [advance_of_lt hnext]), hs.rstN, advance_of_lt hnext, hs.cmds, rfl⟩

/-- The write of cell 5 gives the response (R188; log 4). -/
theorem WritingOut.respondsWithin_one (hs : WritingOut f ws (.command :: rest) s) (hnext : f.next.val = 5) :
    RespondsWithin 1 ws s :=
  respondsWithin_of_step (d := 0) hs.step_command (by simp [advance_of_last hnext]) hs.cmds le_rfl

/-- A write-out with as many turns of the command agent before it as cells are left responds within those turns, whatever
event words fall among them (R58, R188). -/
theorem WritingOut.respondsWithin {gaps : List (List EvtWord)} (hs : WritingOut f ws (interleaved gaps ++ rest) s)
    (hturns : 6 ≤ f.next.val + gaps.length) : RespondsWithin (interleavedSteps gaps) ws s := by
  induction gaps generalizing f s with
  | nil => exact absurd f.next.isLt (Nat.not_lt.2 hturns)
  | cons es gaps ih =>
    have hs' : WritingOut f ws (es.map .events ++ .command :: (interleaved gaps ++ rest)) s := by
      simpa [interleaved] using hs
    have hsteps : interleavedSteps (es :: gaps) = (es.map eventSteps).sum + (1 + interleavedSteps gaps) := by
      simp [interleavedSteps, Nat.add_assoc]
    rw [List.length_cons] at hturns
    rw [hsteps]
    obtain ⟨t, hst, ht⟩ := hs'.quietRun_eventWords
    refine .after ?_ hst
    by_cases hnext : f.next.val + 1 < 6
    · obtain ⟨u, htu, hu⟩ := ht.quietRun_writeCell hnext
      exact (ih hu (by simp only; omega)).after htu
    · exact (ht.respondsWithin_one (by omega)).mono (by omega)

end

/-! ### The decode order. -/

/-- A command word with a reserved bit set or a field out of range is refused (R74, R79). -/
theorem step_command_illegalArg {s : State} {w : CmdWord} {ws : List CmdWord} {rest : List Slot} (hready : Ready s)
    (hsched : s.schedule = .command :: rest) (hcmds : s.cmds = w :: ws) (hop : (opOf w).toNat < 10)
    (hbad : argOf w &&& mustBeZero (opOf w).toNat ≠ 0 ∨ ¬ FieldsInRange w) :
    step s = .next { s with cmds := ws, schedule := rest, rsp := some ⟨.illegalArg, 0⟩ } := by
  obtain ⟨i, hi, hdec⟩ := decodeCommand_eq_ite hop
  by_cases hz : argOf w &&& mustBeZero (opOf w).toNat = 0
  · rw [if_pos hz] at hdec
    have hrange : ¬ FieldsInRange w := hbad.resolve_left (not_not.2 hz)
    rw [step_command hready hsched hcmds hdec, hi.exec_illegalArg (mt hi.wf_iff.1 hrange)]
    rfl
  · rw [if_neg hz] at hdec
    exact step_command_refused hready hsched hcmds hdec

/-- Settles O5: the first two checks of R79 refuse, and a word that passes them runs its instruction, which responds in its
own step or begins a write-out; that one responds within the next six turns of the command agent. -/
theorem commandWordsFollowTheDecodeOrder : Obligations.CommandWordsFollowTheDecodeOrder := by
  unfold Obligations.CommandWordsFollowTheDecodeOrder
  intro s w ws rest hready hsched hcmds
  refine ⟨?reserved, ?illegal, ?legal⟩
  case reserved =>
    intro hop
    exact step_command_refused hready hsched hcmds (decodeCommand_reservedOp hop)
  case illegal =>
    intro hop hbad
    exact step_command_illegalArg hready hsched hcmds hop hbad
  case legal =>
    intro hop hz hrange
    obtain ⟨i, hi, hdec⟩ := decodeCommand_eq_ite hop
    rw [if_pos hz] at hdec
    have hwf := hi.wf_iff.2 hrange
    have hstep := step_command hready hsched hcmds hdec
    refine ⟨⟨i, hdec, hwf, hstep⟩, ?_⟩
    rcases hi.exec_ok hwf { s with cmds := ws, schedule := rest, rsp := none } with
      ⟨-, -, t, d, hexec, hrsp⟩ | ⟨hformat, c, hexec⟩
    · have hnext := hstep.trans hexec
      refine ⟨fun _ _ => ⟨t, d, hnext, hrsp⟩, fun gaps later _ _ => ?_⟩
      exact respondsWithin_of_step hnext hrsp (exec_keeps_inputs hexec).1 (by omega)
    · refine ⟨fun h3 h4 => absurd hformat (by omega), fun gaps later hrest hturns => ?_⟩
      have hwriting : WritingOut ⟨c, 0⟩ ws (interleaved gaps ++ later)
          (startFormat c { s with cmds := ws, schedule := rest, rsp := none }) := ⟨hready.1, rfl, rfl, hrest⟩
      exact (hwriting.respondsWithin (by simp [hturns])).after (quietRun_one (hstep.trans hexec) rfl)

end Sys2Proof.Machine
end

section
/-! The three commands of the segment model, NOP, WRCELL and RDCELL, and its glyph tables (40_segment_model.md R100 to
R106). -/

namespace Sys2Proof.Machine

/-- Settles O14: the meaning of NOP, and format Z of its opcode. -/
theorem nopOnlyResponds : Obligations.NopOnlyResponds := by
  unfold Obligations.NopOnlyResponds
  refine ⟨exec_nop, ?reservedBits, rfl⟩
  case reservedBits =>
    intro arg
    rw [ite_not]
    exact decodeCommand_append 0 arg

/-- Settles O15: WRCELL is one memory write, whose read-over-write law gives the addressed cell and all the others; an
index past the cells is refused by the meaning, a reserved bit by format CW. -/
theorem wrcellWritesOneCell : Obligations.WrcellWritesOneCell := by
  unfold Obligations.WrcellWritesOneCell
  refine ⟨?written, ?refused, ?reservedBits⟩
  case written =>
    intro idx data s hidx hwf
    have hread (j : CellIdx) := read_write hwf ⟨idx.toNat, hidx⟩ j data
    refine ⟨_, exec_wrcell hidx data s, rfl, ?addressed, ?others⟩
    case addressed => exact (hread _).trans (if_pos rfl)
    case others =>
      intro j hj
      exact (hread j).trans (if_neg (Fin.ne_of_val_ne hj))
  case refused =>
    intro idx data s hidx
    exact exec_wrcell_refused hidx data s
  case reservedBits =>
    intro arg
    rw [ite_not]
    exact decodeCommand_append 1 arg

/-- Settles O16: the meaning of RDCELL inside the cells and past them, and format CR of its opcode. -/
theorem rdcellRespondsTheCell : Obligations.RdcellRespondsTheCell := by
  unfold Obligations.RdcellRespondsTheCell
  refine ⟨?read, ?refused, ?reservedBits⟩
  case read =>
    intro idx s hidx
    exact exec_rdcell hidx s
  case refused =>
    intro idx s hidx
    exact exec_rdcell_refused hidx s
  case reservedBits =>
    intro arg
    simp only [← not_and_or, ne_eq, ite_not]
    exact decodeCommand_append 2 arg

/-- Settles O18: the byte of each digit is evaluated and compared with its segments, one row of R100 after another. -/
theorem digitGlyphsLightTheirSegments : Obligations.DigitGlyphsLightTheirSegments := by
  unfold Obligations.DigitGlyphsLightTheirSegments
  exact ⟨rfl, rfl, rfl, rfl, rfl, rfl, rfl, rfl, rfl, rfl⟩

/-- Settles O19: both parts are closed data, checked on every row of R101 and on every digit. -/
theorem letterGlyphsLightTheirSegments : Obligations.LetterGlyphsLightTheirSegments := by
  unfold Obligations.LetterGlyphsLightTheirSegments
  refine ⟨?letters, ?digits⟩
  case letters => decide
  case digits => decide

end Sys2Proof.Machine
end

section
/-! The display multiplexer: TICKMUX running and suspended, the pins inside its step, MUXON and MUXOFF
(41_display_mux.md R120 to R126). -/

namespace Sys2Proof.Machine

/-! ### The pins inside one TICKMUX step (R121). -/

/-- The pins of a running TICKMUX step, before it and after each of its four actions. -/
theorem tickmuxTrace_running {s : State} (h : s.muxOn = true) {c : CellIdx}
    (hc : c.val = (s.cursor.toNat + 1) % 6) :
    tickmuxTrace s =
      [(s.segOut, s.colOut), (s.segOut, 0), (s.segOut, 0), (s.sb.read c, 0), (s.sb.read c, 1#6 <<< c.val)] := by
  have hcursor : (muxAdvance (muxDeactivate s)).cursor.toNat = c.val := (cursor_advance_toNat _).trans hc.symm
  have hcell : cursorCell (muxAdvance (muxDeactivate s)) = c :=
    Fin.ext ((congrArg (· % 6) hcursor).trans (Nat.mod_eq_of_lt c.isLt))
  have hselect : oneHot (muxAdvance (muxDeactivate s)).cursor = 1#6 <<< c.val := congrArg (1#6 <<< ·) hcursor
  rw [← hselect, ← hcell]
  exact if_pos h

/-- The column selects of a state that meets R125 (a) and (b): no column, or one of the six. -/
theorem MuxValid.colOut_dark_or_one {s : State} (h : MuxValid s) :
    s.colOut = 0 ∨ ∃ i : CellIdx, s.colOut = 1#6 <<< i.val := by
  obtain ⟨hcursor, hcol, -⟩ := h
  exact hcol.imp_right fun hone => ⟨⟨s.cursor.toNat, hcursor⟩, hone⟩

/-- Settles O23: of the five pairs of the sequence only the first and the last have a column active, the first because
the state before the step is valid; the last pair is what the step leaves on the pins. -/
theorem pinsPassThroughTheFourActions : Obligations.PinsPassThroughTheFourActions := by
  unfold Obligations.PinsPassThroughTheFourActions
  intro s c hs hm hc
  have htrace := tickmuxTrace_running hm hc
  refine ⟨htrace, ?atMostOneColumn, ?noGhosting, _, exec_tickmux_running hm hc, ?lastPair⟩
  case atMostOneColumn =>
    have hlast : ∃ i : CellIdx, 1#6 <<< c.val = 1#6 <<< i.val := ⟨c, rfl⟩
    simpa [htrace, hlast] using hs.colOut_dark_or_one
  case noGhosting => simp [htrace]
  case lastPair =>
    rw [htrace]
    rfl

/-! ### Refresh ticks (R120, R122, R126). -/

/-- Settles O21: the statement is the law of TICKMUX while the multiplexer runs. -/
theorem tickmuxShowsTheNextCell : Obligations.TickmuxShowsTheNextCell := by
  unfold Obligations.TickmuxShowsTheNextCell
  intro s c hm hc
  exact exec_tickmux_running hm hc

/-- A suspended display discards any number of refresh ticks (R122). -/
theorem execAll_tickmux_suspended {s : State} (hm : s.muxOn = false) (n : Nat) :
    execAll (List.replicate n .tickmux) s = .next s := by
  induction n with
  | zero => rfl
  | succ n ih => rw [List.replicate_succ, execAll_cons (exec_tickmux_suspended hm), ih]

/-- Settles O22: each tick is discarded, and R125 (c) says a suspended display is dark. -/
theorem tickmuxSuspendedChangesNothing : Obligations.TickmuxSuspendedChangesNothing := by
  unfold Obligations.TickmuxSuspendedChangesNothing
  intro s n hm
  refine ⟨execAll_tickmux_suspended hm n, ?dark⟩
  case dark =>
    rintro ⟨-, -, hdark⟩
    exact (hdark hm).symm

/-- Counting on from any `n`, each residue modulo 6 comes up exactly once in six counts: one count after the
distance from `n + 1` up to it. -/
theorem exists_unique_turn (n : Nat) (c : CellIdx) :
    ∃ k, (1 ≤ k ∧ k ≤ 6 ∧ (n + k) % 6 = c.val) ∧
      ∀ k', 1 ≤ k' → k' ≤ 6 → (n + k') % 6 = c.val → k' = k := by
  refine ⟨(c.val + 6 - (n + 1) % 6) % 6 + 1, ⟨by omega, by omega, ?turn⟩, ?unique⟩
  case turn => omega
  case unique =>
    intro k' h1 h6 hk'
    omega

/-- Settles O26: the state after `k` ticks, and the one of six counts at which a cell has its turn. -/
theorem sixRefreshTicksShowEveryCellOnce : Obligations.SixRefreshTicksShowEveryCellOnce := by
  unfold Obligations.SixRefreshTicksShowEveryCellOnce
  intro s hm
  refine ⟨?afterTicks, exists_unique_turn s.cursor.toNat⟩
  case afterTicks =>
    intro k c hk hc
    exact execAll_tickmux_running hm hk hc

/-! ### MUXON and MUXOFF (R123, R124). -/

/-- Settles O24: the meaning of MUXON, and format Z of its opcode. -/
theorem muxonOnlySetsTheBit : Obligations.MuxonOnlySetsTheBit := by
  unfold Obligations.MuxonOnlySetsTheBit
  refine ⟨exec_muxon, ?reservedBits⟩
  case reservedBits =>
    intro arg
    rw [ite_not]
    exact decodeCommand_append 8 arg

/-- Settles O25: neither MUXOFF nor MUXON touches CURSOR or the cells, so the tick after them takes up the scan; the
reserved bits are those of format Z. -/
theorem muxoffDarkensAndKeepsTheScan : Obligations.MuxoffDarkensAndKeepsTheScan := by
  unfold Obligations.MuxoffDarkensAndKeepsTheScan
  refine ⟨exec_muxoff, ?resumes, ?reservedBits⟩
  case resumes =>
    intro s c hc
    have hcursor : (BitVec.ofNat 3 c.val).toNat = c.val := by
      rw [hc]
      exact cursor_advance_toNat _
    rw [execAll_cons (exec_muxoff s), execAll_cons (exec_muxon _),
      execAll_cons (exec_tickmux_running (c := c) ?running ?sameCursor)]
    case running => rfl
    case sameCursor => exact hc
    exact ⟨_, rfl, hcursor, rfl, rfl, rfl⟩
  case reservedBits =>
    intro arg
    rw [ite_not]
    exact decodeCommand_append 9 arg

end Sys2Proof.Machine
end

section
/-! The calendar (42_rtc.md R140 to R143): leap years, the weekday of every date, the last Sunday of a month. -/

namespace Sys2Proof.Machine

/-! ### Leap years and month lengths. -/

/-- Settles O27: the three divisibility tests in the document's order decide the Gregorian rule. -/
theorem leapYearsAreGregorian : Obligations.LeapYearsAreGregorian := by
  unfold Obligations.LeapYearsAreGregorian
  intro y
  unfold leap
  split
  next h400 => exact iff_of_true rfl (.inl (Nat.dvd_of_mod_eq_zero h400))
  next h400 =>
    split
    next h100 => exact iff_of_false nofun (by omega)
    next h100 =>
      split
      next h4 => exact iff_of_true rfl (by omega)
      next h4 => exact iff_of_false nofun (by omega)

theorem dim_february (y : Nat) : dim y 2 = if 400 ∣ y ∨ (4 ∣ y ∧ ¬ 100 ∣ y) then 29 else 28 :=
  if_congr ((and_iff_right rfl).trans (leapYearsAreGregorian y)) rfl rfl

theorem dim_of_ne_two (y : Nat) {m : Nat} (h : m ≠ 2) : dim y m = monthLen m :=
  if_neg fun hfeb => h hfeb.1

/-! ### The weekday (R142). -/

theorem sakYear_of_lt (y : Nat) {m : Nat} (h : m < 3) : sakYear y m = (y : Int) - 1 :=
  if_pos h

theorem sakYear_of_ge (y : Nat) {m : Nat} (h : 3 ≤ m) : sakYear y m = (y : Int) :=
  if_neg (Nat.not_lt.2 h)

/-- The years' share of DOW (R142): one day for each year and one more for each leap year. -/
def yearShift (y : Int) : Int := y + y / 4 - y / 100 + y / 400

theorem dow_eq (y m d : Nat) : dow y m d = ((yearShift (sakYear y m) + sak m + d) % 7).toNat := rfl

theorem yearShift_eq (y : Nat) :
    yearShift y = yearShift (y - 1) + 1 + if 400 ∣ y ∨ (4 ∣ y ∧ ¬ 100 ∣ y) then 1 else 0 := by
  have h4 : (y : Int) / 4 = (y - 1) / 4 + if 4 ∣ y then 1 else 0 := by split <;> omega
  have h100 : (y : Int) / 100 = (y - 1) / 100 + if 100 ∣ y then 1 else 0 := by split <;> omega
  have h400 : (y : Int) / 400 = (y - 1) / 400 + if 400 ∣ y then 1 else 0 := by split <;> omega
  unfold yearShift
  split_ifs at h4 h100 h400 ⊢ <;> omega

theorem dow_lt (y m d : Nat) : dow y m d < 7 := by
  rw [dow_eq]
  omega

/-- Within a month's numbering the weekday goes with the day number. -/
theorem dow_add (y m d k : Nat) : dow y m (d + k) = (dow y m d + k) % 7 := by
  simp only [dow_eq]
  omega

/-- March is counted in the year after February's (R142), whose shift makes up for the leap day. -/
theorem dow_march (y : Nat) : dow y 3 1 = dow y 2 (dim y 2 + 1) := by
  rw [dow_eq, dow_eq, sakYear_of_lt y (m := 2) (by decide), sakYear_of_ge y (m := 3) le_rfl, yearShift_eq, dim_february]
  simp only [sak]
  split <;> omega

/-- In the other months the weekday table goes with the month lengths. -/
theorem sak_next_month {m : Nat} (h1 : 1 ≤ m) (h12 : m < 12) (hm : m ≠ 2) :
    sak (m + 1) % 7 = (sak m + monthLen m) % 7 := by
  revert hm
  interval_cases m <;> decide

theorem sakYear_next_month (y : Nat) {m : Nat} (hm : m ≠ 2) : sakYear y (m + 1) = sakYear y m := by
  unfold sakYear
  split_ifs <;> omega

/-- The first of a month has the weekday of the day after the last of the month before. -/
theorem dow_next_month (y : Nat) {m : Nat} (h1 : 1 ≤ m) (h12 : m < 12) :
    dow y (m + 1) 1 = dow y m (dim y m + 1) := by
  rcases eq_or_ne m 2 with rfl | hm
  · exact dow_march y
  · have hsak := sak_next_month h1 h12 hm
    rw [dow_eq, dow_eq, sakYear_next_month y hm, dim_of_ne_two y hm]
    omega

/-- The first of January has the weekday of the day after 31 December of the year before. -/
theorem dow_next_year (y : Nat) : dow (y + 1) 1 1 = dow y 12 (31 + 1) := by
  rw [dow_eq, dow_eq, sakYear_of_lt (y + 1) (m := 1) (by decide), sakYear_of_ge y (m := 12) (by decide),
    Nat.cast_succ, add_sub_cancel_right]
  simp only [sak]
  omega

/-- Settles O28: the next date is the next day of the month, the first of the next month or the first of the next year;
each has the weekday of the day number after the date's own. -/
theorem weekdayAdvancesWithTheDate : Obligations.WeekdayAdvancesWithTheDate := by
  unfold Obligations.WeekdayAdvancesWithTheDate
  refine ⟨?advances, rfl, dow_lt⟩
  case advances =>
    intro w hm1 hm12 _ hd hwrap
    rw [← dow_add]
    rcases nextDay_cases hm1 hm12 hd with ⟨-, he, hday⟩ | ⟨hlast, hm, he, hmonth⟩ | ⟨hlast, hm, he⟩
    · simp only [he, hday]
    · simp only [he, hmonth, hlast]
      exact dow_next_month w.year.toNat hm1 hm
    · have hday : w.day.toNat = 31 := hlast.trans (by rw [hm]; rfl)
      have hyear : (w.year + 1).toNat = w.year.toNat + 1 := by bv_omega
      simp only [he, hyear, hm, hday]
      exact dow_next_year w.year.toNat

/-! ### The last Sunday of a month (R143). -/

/-- The backward scan stops at the first Sunday it meets, so it passes over none; 0 is the answer only when there is
none. -/
theorem lastSunFrom_spec (y m n : Nat) :
    lastSunFrom y m n ≤ n ∧ (lastSunFrom y m n ≠ 0 → dow y m (lastSunFrom y m n) = 0) ∧
      ∀ d, lastSunFrom y m n < d → d ≤ n → dow y m d ≠ 0 := by
  induction n with
  | zero => exact ⟨le_rfl, fun h => absurd rfl h, fun d h0 hd => absurd h0 (Nat.not_lt.2 hd)⟩
  | succ n ih =>
    unfold lastSunFrom
    split
    next hsunday => exact ⟨le_rfl, fun _ => hsunday, fun d hlt hle => absurd hlt (Nat.not_lt.2 hle)⟩
    next hother =>
      obtain ⟨hle, hdow, hnone⟩ := ih
      refine ⟨Nat.le_succ_of_le hle, hdow, fun d hlt hd => ?_⟩
      rcases Nat.le_succ_iff.1 hd with hd | rfl
      · exact hnone d hlt hd
      · exact hother

/-- One of the seven days 25 to 31 is a Sunday. -/
theorem exists_sunday_from_25 (y m : Nat) : ∃ d, 25 ≤ d ∧ d ≤ 31 ∧ dow y m d = 0 := by
  have hlt := dow_lt y m 25
  refine ⟨25 + (7 - dow y m 25) % 7, by omega, by omega, ?_⟩
  rw [dow_add]
  omega

/-- Settles O29: the scan from day 31 passes over no Sunday, and one lies within its first seven probes. -/
theorem lastSundayScanEndsWithinSevenProbes : Obligations.LastSundayScanEndsWithinSevenProbes := by
  unfold Obligations.LastSundayScanEndsWithinSevenProbes
  intro y m _ _
  obtain ⟨hle, hsunday, hnone⟩ := lastSunFrom_spec y m 31
  obtain ⟨d, hd25, hd31, hd⟩ := exists_sunday_from_25 y m
  have hge : d ≤ lastSun y m := not_lt.1 fun hlt => hnone d hlt hd31 hd
  have hne : lastSun y m ≠ 0 := by omega
  exact ⟨hd25.trans hge, hle, hsunday hne, hnone⟩

end Sys2Proof.Machine
end

section
/-! TICK1HZ: the cascade of one second, the daylight-saving rule on the new values, and a whole day of seconds
(42_rtc.md R144 to R146, R150, R151). -/

namespace Sys2Proof.Machine

/-! ### One second (R144). -/

/-- Settles O30: the four ways of the cascade, and the three ways of the day carry under the last of them. -/
theorem secondsCascadeThroughTheCalendar : Obligations.SecondsCascadeThroughTheCalendar := by
  unfold Obligations.SecondsCascadeThroughTheCalendar
  intro s hs
  obtain ⟨hsec, hmin, hhour, hmonth1, hmonth12, -, hday⟩ := clockValid_iff.1 hs
  refine ⟨_, exec_tick1hz s, rfl, rfl, ?_⟩
  rcases cascade_cases hsec hmin hhour with
    ⟨hs, he⟩ | ⟨hs, hm, he⟩ | ⟨hs, hm, hh, he⟩ | ⟨hs, hm, hh, he⟩
  · exact ⟨fun _ => he, fun h' => by omega⟩
  · exact ⟨fun h' => by omega, fun _ => ⟨fun _ => he, fun h' => by omega⟩⟩
  · exact ⟨fun h' => by omega, fun _ => ⟨fun h' => by omega, fun _ => ⟨fun _ => he, fun h' => by omega⟩⟩⟩
  · refine ⟨fun h' => by omega, fun _ => ⟨fun h' => by omega, fun _ => ⟨fun h' => by omega, fun _ => ?_⟩⟩⟩
    rcases nextDay_cases (w := { s.wall with sec := 0, min := 0, hour := 0 }) hmonth1 hmonth12 hday with
      ⟨hd, hn, -⟩ | ⟨hd, hmonth, hn, -⟩ | ⟨hd, hmonth, hn⟩ <;> simp only at hd
    · exact ⟨fun _ => he.trans hn, fun h' => by omega⟩
    · exact ⟨fun h' => by omega, fun _ => ⟨fun _ => he.trans hn, fun h' => absurd h' hmonth.ne⟩⟩
    · exact ⟨fun h' => by omega, fun _ => ⟨fun h' => absurd h' hmonth.not_lt, fun _ => he.trans hn⟩⟩

/-! ### Daylight saving (R145, R146). -/

theorem atDstInstant_iff {w : WallClock} :
    atDstInstant w = true ↔ w.hour.toNat = 1 ∧ w.min.toNat = 0 ∧ w.sec.toNat = 0 ∧
      dow w.year.toNat w.month.toNat w.day.toNat = 0 := by
  simp only [atDstInstant, Bool.and_eq_true, decide_eq_true_eq, and_assoc]
  rfl

theorem dstEvaluate_of_not_instant {w : WallClock} (h : ¬ atDstInstant w = true) (tz : BitVec 1) :
    dstEvaluate w tz = tz :=
  if_neg h

/-- The DST rule at the instant. -/
theorem dstEvaluate_of_instant {w : WallClock} (h : atDstInstant w = true) (tz : BitVec 1) :
    dstEvaluate w tz =
      if w.month.toNat = 3 ∧ w.day.toNat ≥ lastSun w.year.toNat w.month.toNat then 1
      else if w.month.toNat = 10 ∧ w.day.toNat ≥ lastSun w.year.toNat w.month.toNat then 0
      else tz :=
  if_pos h

/-- Settles O31: the rule at the instant, in March, in October and otherwise, and away from the instant. -/
theorem daylightSavingFollowsTheLastSunday : Obligations.DaylightSavingFollowsTheLastSunday := by
  unfold Obligations.DaylightSavingFollowsTheLastSunday
  intro s
  refine ⟨_, exec_tick1hz s, fun h => ?instant, fun h => ?otherwise⟩
  case instant =>
    simp only [dstEvaluate_of_instant (atDstInstant_iff.2 h)]
    refine ⟨?march, ?october, ?other⟩
    case march =>
      rintro ⟨hm, hd⟩
      exact if_pos ⟨hm, hm ▸ hd⟩
    case october =>
      rintro ⟨hm, hd⟩
      rw [if_neg (by omega), if_pos ⟨hm, hm ▸ hd⟩]
    case other =>
      intro hmarch hoctober
      rw [if_neg fun ⟨hm, hd⟩ => hmarch ⟨hm, hm ▸ hd⟩, if_neg fun ⟨hm, hd⟩ => hoctober ⟨hm, hm ▸ hd⟩]
  case otherwise => exact dstEvaluate_of_not_instant (mt atDstInstant_iff.1 h) _

/-! ### A day of seconds (R150). -/

/-- The time `n` seconds after midnight of the date a clock shows, for `n` below 86400. -/
def WallClock.atSecond (w : WallClock) (n : Nat) : WallClock :=
  { w with sec := BitVec.ofNat 6 (n % 60), min := BitVec.ofNat 6 (n / 60 % 60), hour := BitVec.ofNat 5 (n / 3600) }

theorem atSecond_toNat (w : WallClock) {n : Nat} (h : n < 86400) :
    (w.atSecond n).sec.toNat = n % 60 ∧ (w.atSecond n).min.toNat = n / 60 % 60 ∧
      (w.atSecond n).hour.toNat = n / 3600 := by
  simp only [WallClock.atSecond, BitVec.toNat_ofNat]
  omega

theorem atSecond_zero {w : WallClock} (hhour : w.hour = 0) (hmin : w.min = 0) (hsec : w.sec = 0) :
    w.atSecond 0 = w := by
  obtain ⟨sec, min, hour, day, month, year⟩ := w
  cases hhour
  cases hmin
  cases hsec
  rfl

/-- The cascade counts the seconds of a day up to the last, and then carries into the date. -/
theorem cascade_atSecond (w : WallClock) {n : Nat} (h : n < 86400) :
    cascade (w.atSecond n) = if n + 1 < 86400 then w.atSecond (n + 1) else nextDay (w.atSecond 0) := by
  obtain ⟨hsec, hmin, hhour⟩ := atSecond_toNat w h
  rcases cascade_cases (w := w.atSecond n) (by omega) (by omega) (by omega) with
    ⟨hs, he⟩ | ⟨hs, hm, he⟩ | ⟨hs, hm, hh, he⟩ | ⟨hs, hm, hh, he⟩
  · have hnext : (n + 1) % 60 = n % 60 + 1 ∧ (n + 1) / 60 % 60 = n / 60 % 60 ∧ (n + 1) / 3600 = n / 3600 := by omega
    rw [he, if_pos (by omega)]
    simp [WallClock.atSecond, hnext, BitVec.ofNat_add]
  · have hnext : (n + 1) % 60 = 0 ∧ (n + 1) / 60 % 60 = n / 60 % 60 + 1 ∧ (n + 1) / 3600 = n / 3600 := by omega
    rw [he, if_pos (by omega)]
    simp [WallClock.atSecond, hnext, BitVec.ofNat_add]
  · have hnext : (n + 1) % 60 = 0 ∧ (n + 1) / 60 % 60 = 0 ∧ (n + 1) / 3600 = n / 3600 + 1 := by omega
    rw [he, if_pos (by omega)]
    simp [WallClock.atSecond, hnext, BitVec.ofNat_add]
  · rw [he, if_neg (by omega)]
    rfl

/-- Fewer than 86400 seconds after midnight the date is the same. -/
theorem iterate_cascade_of_lt {w : WallClock} (h0 : w.atSecond 0 = w) {n : Nat} (h : n < 86400) :
    cascade^[n] w = w.atSecond n := by
  induction n with
  | zero => exact h0.symm
  | succ n ih => rw [Function.iterate_succ_apply', ih (by omega), cascade_atSecond w (by omega), if_pos h]

/-- A day after midnight it is midnight of the next date. -/
theorem iterate_cascade_day {w : WallClock} (h0 : w.atSecond 0 = w) : cascade^[86400] w = nextDay w := by
  rw [Function.iterate_succ_apply' cascade 86399, iterate_cascade_of_lt h0 (by decide), cascade_atSecond w (by decide),
    if_neg (by decide), h0]

/-- `n` TICK1HZ steps cascade the clock `n` times and change nothing but WallClock and TZ. -/
theorem execAll_tick1hz (n : Nat) (s : State) :
    ∃ tz, execAll (List.replicate n .tick1hz) s = .next (s.atTime (cascade^[n] s.wall) tz) := by
  induction n with
  | zero => exact ⟨s.tz, rfl⟩
  | succ n ih =>
    obtain ⟨tz, hn⟩ := ih
    refine ⟨dstEvaluate (cascade^[n + 1] s.wall) tz, ?_⟩
    rw [List.replicate_succ', execAll_append hn, execAll_cons (exec_tick1hz_atTime _), execAll_nil,
      Function.iterate_succ_apply']
    rfl

/-- Settles O32: one step by `clockValid_of_wall_eq_cascade`; a day of steps cascades the clock 86400 times, which from
midnight is one day carry. -/
theorem oneDayOfTicksAdvancesTheDate : Obligations.OneDayOfTicksAdvancesTheDate := by
  unfold Obligations.OneDayOfTicksAdvancesTheDate
  refine ⟨?valid, ?day⟩
  case valid =>
    intro s t hs h
    rw [exec_tick1hz] at h
    cases h
    exact clockValid_of_wall_eq_cascade hs rfl
  case day =>
    intro s _ hhour hmin hsec
    obtain ⟨tz, hrun⟩ := execAll_tick1hz 86400 s
    rw [iterate_cascade_day (atSecond_zero hhour hmin hsec)] at hrun
    exact ⟨_, hrun, rfl, rfl, (nextDay_hour _).trans hhour, (nextDay_min _).trans hmin, (nextDay_sec _).trans hsec⟩

/-! ### The wrap of YEAR (R151). -/

/-- TICK1HZ to a time that is not the DST instant leaves TZ alone. -/
theorem exec_tick1hz_of_not_instant {s : State} {w : WallClock} (hw : cascade s.wall = w)
    (h : ¬ atDstInstant w = true) : exec .tick1hz s = .next { s with wall := w } := by
  rw [exec_tick1hz, hw, dstEvaluate_of_not_instant h]

/-- Settles O33: the cascade carries through every unit, and neither midnight nor the second after it is the DST
instant. -/
theorem yearWrapsAfter65535 : Obligations.YearWrapsAfter65535 := by
  unfold Obligations.YearWrapsAfter65535
  intro s hs
  have hwrap : exec .tick1hz s = .next { s with wall := ⟨0, 0, 0, 1, 1, 0⟩ } :=
    exec_tick1hz_of_not_instant (by rw [hs]; decide) (by decide)
  refine ⟨hwrap, ?_⟩
  rw [execAll_cons hwrap, execAll_cons (exec_tick1hz_of_not_instant (w := ⟨1, 0, 0, 1, 1, 0⟩) rfl (by decide)),
    execAll_nil]

end Sys2Proof.Machine
end

section
/-! SETTIME and RDTIME (42_rtc.md R147, R148). -/

namespace Sys2Proof.Machine

theorem settable_eq_false_iff {r : TimeRecord} :
    settable r = false ↔ r.year.toNat = 0 ∨
      validTime r.sec.toNat r.min.toNat r.hour.toNat r.day.toNat r.month.toNat r.year.toNat = false := by
  rw [← Bool.not_eq_true, settable_iff, not_and_or, not_not, Bool.not_eq_true]

/-- Settles O34: an accepted record fits the registers, any other is refused, and format T tests the reserved bits. -/
theorem settimeReplacesTheClockOrRefuses : Obligations.SettimeReplacesTheClockOrRefuses := by
  unfold Obligations.SettimeReplacesTheClockOrRefuses
  refine ⟨?accepted, ?refused, ?reservedBits⟩
  case accepted =>
    intro r s hyear hvalid
    have hr : settable r = true := settable_iff.2 ⟨hyear, hvalid⟩
    obtain ⟨hsec, hmin, hhour, hday, hmonth, -⟩ := toNat_wallOf_of_settable hr
    exact ⟨_, exec_settime hr s, rfl, hsec, hmin, hhour, hday, hmonth, rfl⟩
  case refused =>
    intro r s h
    exact exec_settime_refused (settable_eq_false_iff.2 h) s
  case reservedBits =>
    intro arg
    rw [ite_not]
    exact decodeCommand_append 5 arg

/-- Settles O35: the meaning of RDTIME, and format Z of its opcode. -/
theorem rdtimeRespondsTheRecord : Obligations.RdtimeRespondsTheRecord := by
  unfold Obligations.RdtimeRespondsTheRecord
  refine ⟨exec_rdtime, ?reservedBits⟩
  case reservedBits =>
    intro arg
    rw [ite_not]
    exact decodeCommand_append 6 arg

end Sys2Proof.Machine
end

section
/-! Local time and RDLOCAL (43_timezone.md R170, R171). -/

namespace Sys2Proof.Machine

/-! ### LOCAL, case by case (R170). -/

/-- No offset: LOCAL is the identity. -/
theorem localClock_zero {w : WallClock} (h : w.hour.toNat ≤ 23) : localClock w 0 = w := by
  have hday : ¬ 24 ≤ w.hour.toNat := by omega
  simp [localClock, hday]

/-- The offset stays within the day. -/
theorem localClock_one_of_lt {w : WallClock} (h : w.hour.toNat < 23) :
    localClock w 1 = { w with hour := w.hour + 1 } := by
  have hhour : BitVec.ofNat 5 (w.hour.toNat + 1) = w.hour + 1 := by bv_omega
  simp [localClock, h.not_ge, hhour]

/-- The offset goes past midnight: it is hour 0 of the next date. -/
theorem localClock_one_of_eq {w : WallClock} (h : w.hour.toNat = 23) :
    localClock w 1 = nextDay { w with hour := 0 } := by
  simp [localClock, h]

/-- Minutes and seconds are never shifted. -/
@[simp] theorem localClock_sec (w : WallClock) (tz : BitVec 1) : (localClock w tz).sec = w.sec := by
  simp only [localClock]
  split <;> simp

@[simp] theorem localClock_min (w : WallClock) (tz : BitVec 1) : (localClock w tz).min = w.min := by
  simp only [localClock]
  split <;> simp

/-- LOCAL of a valid time is a valid time (R149, R170). -/
theorem clockValid_of_wall_eq_localClock {s t : State} {tz : BitVec 1} (hs : ClockValid s)
    (ht : t.wall = localClock s.wall tz) : ClockValid t := by
  obtain ⟨hsec, hmin, hhour, hmonth1, hmonth12, hday1, hday⟩ := clockValid_iff.1 hs
  rw [clockValid_iff, ht]
  obtain rfl | rfl : tz = 0 ∨ tz = 1 := BitVec.eq_zero_or_eq_one tz
  · rw [localClock_zero hhour]
    exact ⟨hsec, hmin, hhour, hmonth1, hmonth12, hday1, hday⟩
  · rcases hhour.lt_or_eq with hlt | heq
    · have hhour' : (s.wall.hour + 1).toNat ≤ 23 := by bv_omega
      rw [localClock_one_of_lt hlt]
      exact ⟨hsec, hmin, hhour', hmonth1, hmonth12, hday1, hday⟩
    · have hdate := nextDay_valid (w := { s.wall with hour := 0 }) hmonth1 hmonth12 hday
      rw [localClock_one_of_eq heq]
      exact ⟨by simpa using hsec, by simpa using hmin, by simp, hdate⟩

/-- Settles O37: the three ways of LOCAL, and the three ways of the day carry past midnight. -/
theorem localTimeAddsTheOffsetWithRollover : Obligations.LocalTimeAddsTheOffsetWithRollover := by
  unfold Obligations.LocalTimeAddsTheOffsetWithRollover
  intro s hs
  obtain ⟨-, -, hhour, hmonth1, hmonth12, -, hday⟩ := clockValid_iff.1 hs
  refine ⟨?noOffset, ?sameDay, ?nextDate, clockValid_of_wall_eq_localClock hs rfl⟩
  case noOffset =>
    intro htz
    rw [htz, localClock_zero hhour]
  case sameDay =>
    intro htz hlt
    rw [htz, localClock_one_of_lt hlt]
  case nextDate =>
    intro htz heq
    rw [htz, localClock_one_of_eq heq]
    rcases nextDay_cases (w := { s.wall with hour := 0 }) hmonth1 hmonth12 hday with
      ⟨hd, hn, -⟩ | ⟨hd, hm, hn, -⟩ | ⟨hd, hm, hn⟩ <;> simp only at hd
    · exact ⟨fun _ => hn, fun h => absurd h hd.ne, fun h => absurd h hd.ne⟩
    · exact ⟨fun h => absurd hd h.ne, fun _ _ => hn, fun _ h => absurd h hm.ne⟩
    · exact ⟨fun h => absurd hd h.ne, fun _ h => absurd hm h.ne, fun _ _ => hn⟩

/-! ### RDLOCAL (R171). -/

/-- Settles O38: the meaning of RDLOCAL, whose minutes and seconds LOCAL leaves alone, and format Z of its opcode. -/
theorem rdlocalRespondsLocalTime : Obligations.RdlocalRespondsLocalTime := by
  unfold Obligations.RdlocalRespondsLocalTime
  refine ⟨?record, ?reservedBits⟩
  case record =>
    intro s
    refine ⟨_, rfl, ?_⟩
    rw [exec_rdlocal, ← localClock_min s.wall s.tz, ← localClock_sec s.wall s.tz]
    rfl
  case reservedBits =>
    intro arg
    rw [ite_not]
    exact decodeCommand_append 7 arg

end Sys2Proof.Machine
end

section
/-! The write-out of a format command (44_fmt_int.md R186, R188; 45_fmt_float.md R212): how it begins, which cells stand
after each of its writes, and the state it ends in. -/

namespace Sys2Proof.Machine

/-! ### The command's own step and one cell write. -/

/-- Settles O39: the meanings of FMTINT and FMTFLT, and the formats I and F of their opcodes. -/
theorem formatCommandsBeginTheirWriteOut : Obligations.FormatCommandsBeginTheirWriteOut := by
  unfold Obligations.FormatCommandsBeginTheirWriteOut
  refine ⟨exec_fmtint, exec_fmtflt, decodeCommand_append 3, ?reservedBits⟩
  case reservedBits =>
    intro arg
    rw [ite_not]
    exact decodeCommand_append 4 arg

/-- Settles O40: a busy turn is `writeNextCell`, which writes one cell and moves on, or responds after cell 5. -/
theorem busyTurnWritesTheNextCell : Obligations.BusyTurnWritesTheNextCell := by
  unfold Obligations.BusyTurnWritesTheNextCell
  intro s f rest hrst hflight hsched hwf
  have hwriting : WritingOut f s.cmds (.command :: rest) s := ⟨hrst, hflight, rfl, hsched⟩
  have hread := writeNextCell_read (s := afterSlot rest s) hwf f
  refine ⟨_, hwriting.step_command, rfl, ?nextCell, ?otherCells, ?goesOn, ?ends⟩
  case nextCell => rw [hread, if_pos rfl]
  case otherCells =>
    intro j hj
    rw [hread, if_neg hj, afterSlot_sb]
  case goesOn =>
    intro hlt
    have hadvance := advance_of_lt (f := f) (by omega)
    exact ⟨by simp [hadvance], _, rfl, hadvance⟩
  case ends =>
    intro hlast
    have hadvance := advance_of_last hlast
    exact ⟨by simp [hadvance], hadvance⟩

/-! ### Event words leave the SegmentBuffer alone (R20, R234). -/

theorem exec_tick_sb {i : Instr} {s t : State} (hi : i = .tick1hz ∨ i = .tickmux) (h : exec i s = .next t) :
    t.sb = s.sb := by
  obtain ⟨-, -, hsb, -⟩ := onlyTheListedInstructionsWriteARegister i s t h
  have hcell : ¬ ∃ idx data, i = .wrcell idx data := by rcases hi with rfl | rfl <;> simp
  exact not_not.1 (mt hsb hcell)

theorem eventTurn_sb {e : EvtWord} {s t : State} (h : eventTurn e s = .next t) : t.sb = s.sb := by
  rcases eventWord_cases e with rfl | rfl | rfl | rfl
  · rw [eventTurn_none] at h; cases h; rfl
  · exact exec_tick_sb (.inl rfl) ((eventTurn_second s).symm.trans h)
  · exact exec_tick_sb (.inr rfl) ((eventTurn_refresh s).symm.trans h)
  · exact (exec_tick_sb (.inl rfl) ((eventTurn_both s).symm.trans h) :)

section
variable {f : FrameWrite} {ws : List CmdWord} {rest : List Slot} {s t : State}

/-- The step of an event word, whichever of its events it runs. -/
theorem step_events_sb {e : EvtWord} (hrst : s.rstN = true) (hsched : s.schedule = .events e :: rest)
    (h : step s = .next t) : t.sb = s.sb :=
  eventTurn_sb (s := afterSlot rest s) ((step_events hrst hsched).symm.trans h)

/-- A run that ends in a state begins with a step. -/
theorem exists_step_of_runSteps_succ {k : Nat} (h : runSteps (k + 1) s = .next t) :
    ∃ u, step s = .next u ∧ runSteps k u = .next t := by
  rw [runSteps] at h
  split at h
  · exact ⟨_, ‹_›, h⟩
  · cases h
  · cases h

theorem eventSteps_eq_one {e : EvtWord} (h : e ≠ 0b11) : eventSteps e = 1 := by
  revert e
  decide

/-- All steps of an event word: a word of both events leaves its second for a slot of its own (R77). -/
theorem WritingOut.eventWord_sb {e : EvtWord} (hs : WritingOut f ws (.events e :: rest) s)
    (h : runSteps (eventSteps e) s = .next t) : t.sb = s.sb := by
  by_cases hboth : e = 0b11
  · subst hboth
    obtain ⟨u, hsu, h⟩ := exists_step_of_runSteps_succ (k := 1) h
    obtain ⟨v, huv, h⟩ := exists_step_of_runSteps_succ (k := 0) h
    cases h
    have hexec := (step_events hs.rstN hs.schedule).symm.trans hsu
    rw [eventTurn_both] at hexec
    obtain ⟨-, hsched, hrst⟩ := exec_keeps_inputs hexec
    exact (step_events_sb (hrst.trans hs.rstN) hsched huv).trans (step_events_sb hs.rstN hs.schedule hsu)
  · rw [eventSteps_eq_one hboth] at h
    obtain ⟨u, hsu, h⟩ := exists_step_of_runSteps_succ h
    cases h
    exact step_events_sb hs.rstN hs.schedule hsu

theorem WritingOut.eventWords_sb {es : List EvtWord} (hs : WritingOut f ws (es.map .events ++ rest) s)
    (h : runSteps (es.map eventSteps).sum s = .next t) : t.sb = s.sb := by
  induction es generalizing s with
  | nil => cases h; rfl
  | cons e es ih =>
    obtain ⟨u, hsu, hu⟩ := hs.quietRun_eventWord
    rw [List.map_cons, List.sum_cons, runSteps_add hsu.run] at h
    exact (ih hu h).trans (hs.eventWord_sb hsu.run)

end

/-! ### Half-drawn buffers (R56, R188). -/

/-- The write-out `f` is in flight over the buffer that was `m`: the cells before its next one are its frame's, the
others as they were. -/
structure HalfDrawn (m : Memory) (f : FrameWrite) (ws : List CmdWord) (sched : List Slot) (s : State) : Prop
    extends WritingOut f ws sched s where
  wf : s.sb.wf = true
  read_sb : ∀ i : CellIdx, s.sb.read i = if i.val < f.next.val then f.frame.cell i else m.read i

section
variable {m : Memory} {f : FrameWrite} {ws : List CmdWord} {rest : List Slot} {s : State}

/-- Event words draw nothing. -/
theorem HalfDrawn.quietRun_eventWords {es : List EvtWord} (hs : HalfDrawn m f ws (es.map .events ++ rest) s) :
    ∃ t, QuietRun (es.map eventSteps).sum s t ∧ HalfDrawn m f ws rest t := by
  obtain ⟨t, hst, ht⟩ := hs.toWritingOut.quietRun_eventWords
  have hsb := hs.toWritingOut.eventWords_sb hst.run
  exact ⟨t, hst, ht, by rw [hsb, hs.wf], by rw [hsb]; exact hs.read_sb⟩

/-- A turn of the command agent draws the next cell. -/
theorem HalfDrawn.read_writeNextCell (hs : HalfDrawn m f ws (.command :: rest) s) (i : CellIdx) :
    (writeNextCell f (afterSlot rest s)).sb.read i =
      if i.val < f.next.val + 1 then f.frame.cell i else m.read i := by
  rw [writeNextCell_read (by exact hs.wf), afterSlot_sb, hs.read_sb]
  by_cases hi : i = f.next
  · subst hi
    simp
  · have hne : i.val ≠ f.next.val := fun h => hi (Fin.ext h)
    simp only [hi, if_false, show i.val < f.next.val + 1 ↔ i.val < f.next.val by omega]

theorem HalfDrawn.quietRun_writeCell (hs : HalfDrawn m f ws (.command :: rest) s) (hnext : f.next.val + 1 < 6) :
    ∃ t, QuietRun 1 s t ∧ HalfDrawn m ⟨f.frame, ⟨f.next.val + 1, hnext⟩⟩ ws rest t :=
  have hadvance := advance_of_lt hnext
  ⟨_, quietRun_one hs.step_command (by simp [hadvance]), ⟨hs.rstN, hadvance, hs.cmds, rfl⟩, write_wf hs.wf _ _,
    hs.read_writeNextCell⟩

theorem interleaved_cons (es : List EvtWord) (gaps : List (List EvtWord)) :
    interleaved (es :: gaps) = es.map .events ++ .command :: interleaved gaps := by
  simp [interleaved]

theorem interleavedSteps_cons (es : List EvtWord) (gaps : List (List EvtWord)) :
    interleavedSteps (es :: gaps) = (es.map eventSteps).sum + (1 + interleavedSteps gaps) := by
  simp [interleavedSteps, Nat.add_assoc]

/-- Fewer turns than cells are left: each draws one cell and none responds, whatever event words fall among them. -/
theorem HalfDrawn.quietRun_interleaved {gaps : List (List EvtWord)}
    (hs : HalfDrawn m f ws (interleaved gaps ++ rest) s) (hturns : f.next.val + gaps.length < 6) :
    ∃ t, QuietRun (interleavedSteps gaps) s t ∧
      HalfDrawn m ⟨f.frame, ⟨f.next.val + gaps.length, hturns⟩⟩ ws rest t := by
  induction gaps generalizing f s with
  | nil => exact ⟨s, quietRun_zero s, hs⟩
  | cons es gaps ih =>
    rw [interleaved_cons, List.append_assoc] at hs
    rw [interleavedSteps_cons]
    rw [List.length_cons] at hturns
    obtain ⟨t, hst, ht⟩ := hs.quietRun_eventWords
    obtain ⟨u, htu, hu⟩ := ht.quietRun_writeCell (by omega)
    obtain ⟨v, huv, hv⟩ := ih hu (by simp only; omega)
    refine ⟨v, hst.trans (htu.trans huv), ?_⟩
    simpa only [List.length_cons, Nat.add_assoc, Nat.add_comm 1] using hv

end

theorem interleavedSteps_pos {gaps : List (List EvtWord)} (h : 0 < gaps.length) : 0 < interleavedSteps gaps := by
  cases gaps with
  | nil => cases h
  | cons es gaps =>
    rw [interleavedSteps_cons]
    omega

theorem frame_eq_of_read_eq {m : Memory} {c : Frame} (h : ∀ i, m.read i = c.cell i) : m.frame = c := by
  simp only [Memory.frame, h]
  rfl

theorem interleaved_append (gaps gaps' : List (List EvtWord)) :
    interleaved (gaps ++ gaps') = interleaved gaps ++ interleaved gaps' := List.flatMap_append

theorem interleavedSteps_append (gaps gaps' : List (List EvtWord)) :
    interleavedSteps (gaps ++ gaps') = interleavedSteps gaps + interleavedSteps gaps' := by
  simp [interleavedSteps]

/-- As many turns as cells are left: the last one completes the frame and responds. -/
theorem HalfDrawn.runSteps_interleaved {m : Memory} {c : Frame} {n : CellIdx} {ws : List CmdWord} {s : State}
    {gaps : List (List EvtWord)} (hs : HalfDrawn m ⟨c, n⟩ ws (interleaved gaps) s) (hturns : n.val + gaps.length = 6) :
    ∃ t, runSteps (interleavedSteps gaps) s = .next t ∧ (∀ i, t.sb.read i = c.cell i) ∧ t.flight = none ∧
      t.rsp = some ⟨.ok, 0⟩ ∧ t.cmds = ws := by
  obtain rfl | ⟨init, es, rfl⟩ := gaps.eq_nil_or_concat
  · exact absurd hturns n.isLt.ne
  rw [List.concat_eq_append] at hs hturns ⊢
  rw [interleaved_append, interleaved_cons] at hs
  rw [interleavedSteps_append, interleavedSteps_cons]
  rw [List.length_append, List.length_singleton] at hturns
  obtain ⟨t, hst, ht⟩ := hs.quietRun_interleaved (by simp only; omega)
  obtain ⟨u, htu, hu⟩ := ht.quietRun_eventWords
  have hlast : n.val + init.length = 5 := by omega
  have hadvance := advance_of_last (f := ⟨c, ⟨n.val + init.length, by omega⟩⟩) hlast
  have hrun := (runSteps_add (hst.trans htu).run 1).trans (runSteps_succ hu.step_command 0)
  refine ⟨_, hrun, fun i => ?_, hadvance, by simp [hadvance], hu.cmds⟩
  rw [hu.read_writeNextCell, if_pos (by simp only; omega)]

/-- Settles O41: with fewer than six turns the buffer is half drawn and no step has responded; the sixth turn completes
the frame and responds. -/
theorem writeOutIsExactUnderEveryInterleaving : Obligations.WriteOutIsExactUnderEveryInterleaving := by
  unfold Obligations.WriteOutIsExactUnderEveryInterleaving
  intro s c gaps hrst hflight hwf hsched hturns
  have hdrawn : HalfDrawn s.sb ⟨c, 0⟩ s.cmds (interleaved gaps) s :=
    ⟨⟨hrst, hflight, rfl, hsched⟩, hwf, fun i => by simp⟩
  rcases hturns.lt_or_eq with hlt | hsix
  · rw [← List.append_nil (interleaved gaps)] at hdrawn
    obtain ⟨t, hst, ht⟩ := hdrawn.quietRun_interleaved (by simpa using hlt)
    simp only [Fin.val_zero, Nat.zero_add] at ht
    refine ⟨t, hst.run, ht.read_sb, fun _ hpos => ⟨ht.flight, ?_⟩, fun hsix => absurd hsix hlt.ne, ht.cmds⟩
    exact hst.quiet _ t (interleavedSteps_pos hpos) le_rfl hst.run
  · obtain ⟨t, hrun, hread, hnone, hrsp, hcmds⟩ := hdrawn.runSteps_interleaved (by simpa using hsix)
    refine ⟨t, hrun, fun i => ?_, fun h => absurd hsix h.ne, fun _ => ⟨frame_eq_of_read_eq hread, hnone, hrsp⟩, hcmds⟩
    rw [hread, if_pos (by omega)]

/-! ### The whole command on an empty schedule (log 2). -/

section
variable {s : State}

/-- An idle turn before cell 5 writes its cell and goes on (R188). -/
theorem step_idle_writeCell {c : Frame} {n : CellIdx} (hrst : s.rstN = true) (hflight : s.flight = some ⟨c, n⟩)
    (hsched : s.schedule = []) (hnext : n.val + 1 < 6) :
    step s = .next { s with
      sb := s.sb.write n (c.cell n), flight := some ⟨c, ⟨n.val + 1, hnext⟩⟩, rsp := none, schedule := [] } := by
  rw [step_idle hsched, runSlot_busy (by exact hrst) (by exact hflight), writeNextCell, advance_of_lt hnext]
  rfl

/-- The idle turn that writes cell 5 responds (R188; log 4). -/
theorem step_idle_writeLastCell {c : Frame} (hrst : s.rstN = true) (hflight : s.flight = some ⟨c, 5⟩)
    (hsched : s.schedule = []) :
    step s = .next { s with sb := s.sb.write 5 c.c5, flight := none, rsp := some ⟨.ok, 0⟩, schedule := [] } := by
  rw [step_idle hsched, runSlot_busy (by exact hrst) (by exact hflight), writeNextCell, advance_of_last rfl]
  rfl

/-- Six turns draw the whole frame and respond (R188; log 4). -/
theorem runSteps_six_idle {c : Frame} (hrst : s.rstN = true) (hflight : s.flight = some ⟨c, 0⟩)
    (hsched : s.schedule = []) :
    runSteps 6 s = .next { s with sb := s.sb.draw c, flight := none, rsp := some ⟨.ok, 0⟩, schedule := [] } := by
  refine (runSteps_succ (step_idle_writeCell hrst hflight hsched (by decide)) 5).trans ?_
  iterate 4 refine (runSteps_succ (step_idle_writeCell (by exact hrst) rfl rfl (by decide)) _).trans ?_
  exact runSteps_succ (step_idle_writeLastCell (by exact hrst) rfl rfl) 0

/-- The command agent takes a word that decodes on an empty schedule as on its own slot (log 2). -/
theorem step_idle_command {w : CmdWord} {ws : List CmdWord} {i : Instr} (hready : Ready s) (hsched : s.schedule = [])
    (hcmds : s.cmds = w :: ws) (hdec : decodeCommand w = .ok i) :
    step s = exec i { s with cmds := ws, schedule := [], rsp := none } := by
  obtain ⟨hrst, hflight⟩ := hready
  rw [step_idle hsched, runSlot_accept (by exact hrst) (by exact hflight) (by exact hcmds), commandStep_ok hdec]
  rfl

theorem decodeCommand_of_encode {i : Instr} {w : CmdWord} (h : encode i = .cmd w) : decodeCommand w = .ok i := by
  have hdec := decodeOfEncodeIsTheInstruction i
  rw [h, decode] at hdec
  cases hw : decodeCommand w with
  | ok j =>
    rw [hw] at hdec
    cases hdec
    rfl
  | error r =>
    rw [hw] at hdec
    cases hdec

/-- Settles O43: the command's own step puts its frame in flight, and the six idle turns after it draw the frame. -/
theorem formatCommandsComplete : Obligations.FormatCommandsComplete := by
  unfold Obligations.FormatCommandsComplete
  intro s i c hready hwf hsched hi w ws hw hcmds
  have hstart (u : State) : exec i u = .next (startFormat c u) := by
    rcases hi with ⟨v, rfl, rfl⟩ | ⟨v, rfl, rfl⟩
    · exact exec_fmtint v u
    · exact exec_fmtflt v u
  have hstep := (step_idle_command hready hsched hcmds (decodeCommand_of_encode hw)).trans (hstart _)
  have hrun := (runSteps_succ hstep 6).trans (runSteps_six_idle (by exact hready.1) rfl rfl)
  refine ⟨_, hrun, frame_eq_of_read_eq (read_draw hwf c), ?_⟩
  obtain ⟨-, hflight⟩ := hready
  simp [startFormat, hflight, hsched]

end

end Sys2Proof.Machine
end

section
/-! The integer formatter and the exponent cells (44_fmt_int.md R180 to R187). -/

namespace Sys2Proof.Machine

/-! ### The exponent cells (R185). -/

theorem digitAt_zero (m : Nat) : digitAt m 0 = ⟨m % 10, Nat.mod_lt _ (by decide)⟩ := by simp [digitAt]

theorem digitAt_one (m : Nat) : digitAt m 1 = ⟨(m / 10) % 10, Nat.mod_lt _ (by decide)⟩ := by simp [digitAt]

/-- Settles O46: the four branches of EXPCELLS, by the sign of the exponent and its number of digits. -/
theorem exponentCellsHaveFourLayouts : Obligations.ExponentCellsHaveFourLayouts := by
  unfold Obligations.ExponentCellsHaveFourLayouts
  intro d e _
  refine ⟨fun hten => ⟨?twoDigits, ?minusTwoDigits⟩, fun hnine => ?oneDigit, fun hone hnine => ?minusOneDigit⟩
  case twoDigits =>
    rw [expCells, if_pos (by omega), Int.natAbs_natCast, digitAt_zero, digitAt_one]
    rfl
  case minusTwoDigits =>
    rw [expCells, if_neg (by omega), if_neg (by omega), if_neg (by omega), Int.natAbs_neg, Int.natAbs_natCast,
      digitAt_zero, digitAt_one]
    rfl
  case oneDigit =>
    rw [expCells, if_neg (by omega), if_pos (by omega), Int.natAbs_natCast, digitAt_zero]
    rfl
  case minusOneDigit =>
    rw [expCells, if_neg (by omega), if_neg (by omega), if_pos (by omega), Int.natAbs_neg, Int.natAbs_natCast,
      digitAt_zero]
    rfl

/-! ### Which byte each cell of a signed frame shows (R180). -/

theorem digitCells_eq (neg : Bool) : digitCells neg = 5 ∨ digitCells neg = 6 := by
  cases neg <;> decide

theorem digitCells_decide (x : Int) : digitCells (decide (x < 0)) = if x < 0 then 5 else 6 := by
  by_cases h : x < 0 <;> simp [digitCells, h]

/-- The minus sign is in cell 0, in the fixed form and in the scientific form. -/
theorem intFixed_cell_zero (mag : Nat) : (intFixed true mag).cell 0 = minus := rfl

theorem sciFrame_cell_zero (ds : List (Fin 10)) (e : Int) : (sciFrame true ds e).cell 0 = minus := rfl

/-- The bytes after the sign stand in the digit cells. -/
theorem frameOf_signCells_cell (neg : Bool) (l : List Byte) {i : Nat} {c : CellIdx}
    (hc : c.val = 6 - digitCells neg + i) : (frameOf (signCells neg ++ l)).cell c = l.getD i blank := by
  rw [frameOf_cell, hc]
  cases neg with
  | false => simp [digitCells, signCells]
  | true => simp [digitCells, signCells, Nat.add_comm 1]

/-! ### The integer that fits (R181, R182). -/

theorem intFrame_of_fits {x : Int} (hx : x ≠ 0) (h : x.natAbs < 10 ^ digitCells (decide (x < 0))) :
    intFrame x = intFixed (decide (x < 0)) x.natAbs := by
  simp only [intFrame, if_neg hx, if_pos h]

/-- The digit of weight 10^k stands k cells before the last. -/
theorem intFixed_cell (neg : Bool) (mag : Nat) {k : Nat} {c : CellIdx} (hk : k < digitCells neg) (hc : c.val + k = 5) :
    (intFixed neg mag).cell c = fixedCell mag k := by
  have hn := digitCells_eq neg
  have hi : digitCells neg - 1 - k < digitCells neg := by omega
  have hback : digitCells neg - 1 - (digitCells neg - 1 - k) = k := by omega
  rw [intFixed, frameOf_signCells_cell neg _ (i := digitCells neg - 1 - k) (by omega), List.getD_eq_getElem?_getD,
    List.getElem?_map, List.getElem?_range hi, Option.map_some, Option.getD_some, hback]

/-- Settles O44: zero has its own frame, and any other integer that fits has the fixed form, cell by cell. -/
theorem integersThatFitAreRightJustified : Obligations.IntegersThatFitAreRightJustified := by
  unfold Obligations.IntegersThatFitAreRightJustified
  refine ⟨rfl, fun x n hx hn hfits => ?_⟩
  rw [← digitCells_decide] at hn
  subst hn
  rw [intFrame_of_fits hx hfits]
  refine ⟨fun hneg => ?sign, fun k c hk hc => ?digits⟩
  case sign =>
    rw [decide_eq_true hneg]
    exact intFixed_cell_zero _
  case digits => exact intFixed_cell _ _ hk hc

/-! ### The integer that does not fit (R183, R184). -/

theorem intFrame_of_wide {x : Int} (hx : x ≠ 0) (h : 10 ^ digitCells (decide (x < 0)) ≤ x.natAbs) :
    intFrame x = intSci (decide (x < 0)) x.natAbs := by
  simp only [intFrame, if_neg hx, if_neg h.not_gt]

/-- Division of a number that half the divisor was added to rounds to nearest, ties upward (R184). -/
theorem div_add_half_bounds (m : Nat) {p : Nat} (hp : 0 < p) (heven : 2 ∣ p) :
    2 * ((m + p / 2) / p * p) ≤ 2 * m + p ∧ 2 * m < 2 * ((m + p / 2) / p * p) + p := by
  have hdiv := Nat.div_add_mod' (m + p / 2) p
  have hmod := Nat.mod_lt (m + p / 2) hp
  omega

/-- The mantissa of `nm` digits to nearest, before the renormalisation (R184). -/
def nearestMantissa (mag nm : Nat) : Nat := (mag + 10 ^ (decade mag - nm + 1) / 2) / 10 ^ (decade mag - nm + 1)

/-- The rounding carries out of the leading digit. -/
theorem roundMantissa_of_carry {mag nm : Nat} (h : nearestMantissa mag nm = 10 ^ nm) :
    roundMantissa mag nm = (10 ^ (nm - 1), decade mag + 1) := if_pos h

theorem roundMantissa_of_no_carry {mag nm : Nat} (h : nearestMantissa mag nm ≠ 10 ^ nm) :
    roundMantissa mag nm = (nearestMantissa mag nm, decade mag) := if_neg h

section
variable {neg : Bool} {ds : List (Fin 10)} {e : Int} {c : CellIdx}

/-- The mantissa digits follow the sign, the point lit on the first (R184, R210). -/
theorem sciFrame_cell_digit {i : Nat} {d : Fin 10} (hd : ds[i]? = some d) (hc : c.val = 6 - digitCells neg + i) :
    (sciFrame neg ds e).cell c = dig d ||| (if i = 0 then 0x80 else 0x00) := by
  have hi : i < (digitGlyphs 0 ds).length := by
    rw [length_digitGlyphs]
    exact (List.getElem?_eq_some_iff.1 hd).1
  rw [sciFrame, List.append_assoc, frameOf_signCells_cell neg _ hc, List.getD_eq_getElem?_getD,
    List.getElem?_append_left hi, getElem?_digitGlyphs, hd]
  rfl

/-- The exponent cells follow the mantissa (R184, R210). -/
theorem sciFrame_cell_exp {j : Nat} (hc : c.val = 6 - digitCells neg + ds.length + j) :
    (sciFrame neg ds e).cell c = (expCells e).getD j blank := by
  rw [sciFrame, List.append_assoc, frameOf_signCells_cell neg _ (hc.trans (Nat.add_assoc _ _ _)),
    List.getD_eq_getElem?_getD, List.getElem?_append_right (by simp), length_digitGlyphs, Nat.add_sub_cancel_left,
    List.getD_eq_getElem?_getD]

end

section
variable {mag nm : Nat}

/-- A magnitude that does not fit has its decade at least at the number of its digit cells (R183). -/
theorem le_decade {n : Nat} (h : 10 ^ n ≤ mag) (hmag : mag < 10 ^ 19) : n ≤ decade mag := by
  have hpos : 1 ≤ mag := (Nat.one_le_pow _ _ (by decide)).trans h
  obtain ⟨-, hlt, -⟩ := decade_spec hpos hmag
  exact Nat.le_of_lt_succ ((Nat.pow_lt_pow_iff_right (by decide)).1 (h.trans_lt hlt))

/-- The rounding of a 64-bit magnitude never carries beyond 10^18: in that decade it stays below 9.3E18 (R184). -/
theorem decade_ne_of_carry (hmag : mag ≤ 2 ^ 63) (hnm : nm = 2 ∨ nm = 3)
    (h : nearestMantissa mag nm = 10 ^ nm) : decade mag ≠ 18 := by
  intro h18
  rw [nearestMantissa, h18] at h
  rcases hnm with rfl | rfl <;> norm_num at h <;> omega

theorem roundMantissa_exp_le (h1 : 1 ≤ mag) (hmag : mag ≤ 2 ^ 63) (hnm : nm = 2 ∨ nm = 3) :
    (roundMantissa mag nm).2 ≤ 18 := by
  obtain ⟨-, -, hle⟩ := decade_spec h1 (hmag.trans_lt (by decide))
  by_cases hcarry : nearestMantissa mag nm = 10 ^ nm
  · have hne := decade_ne_of_carry hmag hnm hcarry
    rw [roundMantissa_of_carry hcarry]
    simp only
    omega
  · rw [roundMantissa_of_no_carry hcarry]
    exact hle

end

theorem intSci_eq_sciFrame (neg : Bool) (mag : Nat) :
    intSci neg mag = sciFrame neg (digitsOf (roundMantissa mag (digitCells neg - 3)).1 (digitCells neg - 3))
      (roundMantissa mag (digitCells neg - 3)).2 := rfl

theorem intSci_cell_digit (neg : Bool) (mag : Nat) {i : Nat} {c : CellIdx} (hi : i < digitCells neg - 3)
    (hc : c.val = 6 - digitCells neg + i) :
    (intSci neg mag).cell c =
      dig (digitAt (roundMantissa mag (digitCells neg - 3)).1 (digitCells neg - 3 - 1 - i)) |||
        (if i = 0 then 0x80 else 0x00) := by
  rw [intSci_eq_sciFrame]
  exact sciFrame_cell_digit (getElem?_digitsOf hi) hc

/-- Three exponent cells, in the last three cells whatever the sign. -/
theorem intSci_expCells (neg : Bool) (mag : Nat) :
    [(intSci neg mag).cell 3, (intSci neg mag).cell 4, (intSci neg mag).cell 5] =
      expCells (roundMantissa mag (digitCells neg - 3)).2 := by
  have hcell (j : Nat) {c : CellIdx} (hc : c.val = 3 + j) : (intSci neg mag).cell c =
      (expCells (roundMantissa mag (digitCells neg - 3)).2).getD j blank := by
    have hn := digitCells_eq neg
    exact sciFrame_cell_exp (by rw [length_digitsOf]; omega)
  rw [hcell 0 rfl, hcell 1 rfl, hcell 2 rfl]
  have hlen : (expCells (roundMantissa mag (digitCells neg - 3)).2).length = 3 := by
    rw [length_expCells, if_neg (by omega)]
  obtain ⟨a, b, c, habc⟩ := List.length_eq_three.1 hlen
  rw [habc]
  rfl

/-- Settles O45: the decade is found by search, the mantissa is `roundMantissa`, and each of its digits and of the
exponent cells has its place in the scientific frame. -/
theorem wideIntegersAreRoundedScientific : Obligations.WideIntegersAreRoundedScientific := by
  unfold Obligations.WideIntegersAreRoundedScientific
  intro x n hlo hhi hn hwide
  rw [← digitCells_decide] at hn
  subst hn
  have hmag : x.natAbs ≤ 2 ^ 63 := by omega
  have hpos : 1 ≤ x.natAbs := (Nat.one_le_pow _ _ (by decide)).trans hwide
  have hx : x ≠ 0 := by omega
  have hn := digitCells_eq (decide (x < 0))
  obtain ⟨hle, hlt, hle18⟩ := decade_spec hpos (hmag.trans_lt (by decide))
  have hge := le_decade hwide (hmag.trans_lt (by decide))
  have hexp := roundMantissa_exp_le (nm := digitCells (decide (x < 0)) - 3) hpos hmag (by omega)
  rw [intFrame_of_wide hx hwide]
  refine ⟨_, (roundMantissa x.natAbs (digitCells (decide (x < 0)) - 3)).1, _, _, _, _, hle, hlt, by omega, hle18,
    hexp, rfl, rfl, rfl, ⟨?carry, ?noCarry, ?nearest⟩, ?sign, fun i c hi hc => ?digits, ?exponent⟩
  case carry =>
    intro hcarry
    rw [roundMantissa_of_carry hcarry]
    exact ⟨rfl, rfl⟩
  case noCarry =>
    intro hcarry
    rw [roundMantissa_of_no_carry hcarry]
    exact ⟨rfl, rfl⟩
  case nearest => exact div_add_half_bounds _ (by positivity) (dvd_pow (by decide) (Nat.succ_ne_zero _))
  case sign =>
    intro hneg
    rw [decide_eq_true hneg]
    exact sciFrame_cell_zero _ _
  case digits => exact intSci_cell_digit _ _ hi hc
  case exponent => exact intSci_expCells _ _

/-- Settles O47: both are fixed values, which the model evaluates to. -/
theorem mostNegativeIntegerIsShown : Obligations.MostNegativeIntegerIsShown := by
  unfold Obligations.MostNegativeIntegerIsShown
  exact ⟨rfl, by decide⟩

end Sys2Proof.Machine
end

section
/-! The float formatter (45_fmt_float.md R200 to R210): the classes, the exact value and its order, and the two forms in
rational arithmetic. -/

namespace Sys2Proof.Machine

/-! ### The classes (R201 to R204). -/

section
variable {v : BitVec 32}

theorem classify_nan (hexp : fltExp v = 255) (hfrac : fltFrac v ≠ 0) : classify v = .nan := by
  simp [classify, hexp, hfrac]

theorem classify_infinity (hexp : fltExp v = 255) (hfrac : fltFrac v = 0) : classify v = .infinity := by
  simp [classify, hexp, hfrac]

theorem classify_zero (hexp : fltExp v = 0) (hfrac : fltFrac v = 0) : classify v = .zero := by
  simp [classify, hexp, hfrac]

theorem floatFrame_of_nan (h : classify v = .nan) : floatFrame v = msgError := by
  rw [floatFrame, h]

theorem floatFrame_of_infinity (h : classify v = .infinity) :
    floatFrame v = if fltNeg v then msgNegInf else msgInf := by
  rw [floatFrame, h]

theorem floatFrame_of_zero (h : classify v = .zero) : floatFrame v = zeroFrame := by
  rw [floatFrame, h]

/-- What R201 leaves to the finite nonzero class. -/
theorem fields_of_finite (h : classify v = .finite) : fltExp v < 255 ∧ (fltExp v = 0 → fltFrac v ≠ 0) := by
  have hbyte : fltExp v < 256 := (v.extractLsb' 23 8).isLt
  unfold classify at h
  split_ifs at h
  constructor <;> omega

end

/-- Settles O48: each class by its test in `classify`, and then its message. -/
theorem specialFloatsShowTheirMessages : Obligations.SpecialFloatsShowTheirMessages := by
  unfold Obligations.SpecialFloatsShowTheirMessages
  refine fun v => ⟨fun hexp hfrac => ?nan, fun hexp hfrac hpos => ?inf, fun hexp hfrac hneg => ?negInf,
    fun hexp hfrac => ?zero⟩
  case nan => exact floatFrame_of_nan (classify_nan hexp hfrac)
  case inf =>
    rw [floatFrame_of_infinity (classify_infinity hexp hfrac), hpos]
    rfl
  case negInf =>
    rw [floatFrame_of_infinity (classify_infinity hexp hfrac), hneg]
    rfl
  case zero => exact floatFrame_of_zero (classify_zero hexp hfrac)

/-! ### The exact value and its order of magnitude (R200, R207). -/

theorem magnitude_den_pos (v : BitVec 32) : 0 < (magnitude v).den := by
  unfold magnitude
  split_ifs <;> positivity

/-- The fraction of the model is the rational of R200, subnormal or normal. -/
theorem toRat_magnitude (v : BitVec 32) : (magnitude v).toRat = floatValue v := by
  unfold magnitude floatValue Frac.toRat
  split_ifs
  · rw [zpow_neg, div_eq_mul_inv]
    norm_cast
  · rw [zpow_sub₀ two_ne_zero, zpow_natCast, ← mul_div_assoc]
    norm_cast

/-- A finite nonzero value is a nonzero 24-bit significand at a scale from 2^(-149) to 2^104 (R200). -/
theorem exists_floatValue_eq {v : BitVec 32} (h : classify v = .finite) :
    ∃ (m : ℕ) (e : ℤ), floatValue v = m * (2 : ℚ) ^ e ∧ 1 ≤ m ∧ m < 2 ^ 24 ∧ -149 ≤ e ∧ e ≤ 104 := by
  obtain ⟨hexp, hfrac⟩ := fields_of_finite h
  have hfr : fltFrac v < 2 ^ 23 := (v.extractLsb' 0 23).isLt
  by_cases hsub : fltExp v = 0
  · exact ⟨fltFrac v, -149, by rw [floatValue, if_pos hsub], Nat.one_le_iff_ne_zero.2 (hfrac hsub), by omega,
      by omega, by omega⟩
  · exact ⟨2 ^ 23 + fltFrac v, fltExp v - 150, by rw [floatValue, if_neg hsub]; norm_cast, by omega, by omega,
      by omega, by omega⟩

theorem floatValue_bounds {v : BitVec 32} (h : classify v = .finite) :
    (2 : ℚ) ^ (-149 : ℤ) ≤ floatValue v ∧ floatValue v < (2 : ℚ) ^ (128 : ℤ) := by
  obtain ⟨m, e, hV, hm1, hm24, hlo, hhi⟩ := exists_floatValue_eq h
  have hscale : (0 : ℚ) < 2 ^ e := by positivity
  rw [hV]
  constructor
  · calc (2 : ℚ) ^ (-149 : ℤ) ≤ 2 ^ e := zpow_le_zpow_right₀ one_le_two hlo
      _ ≤ m * 2 ^ e := le_mul_of_one_le_left hscale.le (by exact_mod_cast hm1)
  · calc (m : ℚ) * 2 ^ e < 2 ^ 24 * 2 ^ e := mul_lt_mul_of_pos_right (by exact_mod_cast hm24) hscale
      _ ≤ 2 ^ 24 * 2 ^ (104 : ℤ) := by gcongr; exact one_le_two
      _ = 2 ^ (128 : ℤ) := by norm_num

/-- The search for the order covers every finite nonzero value: 10^(-45) < 2^(-149) and 2^128 < 10^39 (R207). -/
theorem order_magnitude_spec {v : BitVec 32} (h : classify v = .finite) :
    (10 : ℚ) ^ order (magnitude v) ≤ floatValue v ∧ floatValue v < (10 : ℚ) ^ (order (magnitude v) + 1) ∧
      -45 ≤ order (magnitude v) ∧ order (magnitude v) ≤ 38 := by
  obtain ⟨hlo, hhi⟩ := floatValue_bounds h
  have htop : floatValue v < (10 : ℚ) ^ ((38 : ℤ) + 1) := hhi.trans (by norm_num)
  have hbottom : (10 : ℚ) ^ ((38 : ℤ) - (83 : ℕ)) ≤ floatValue v := le_trans (by norm_num) hlo
  rw [← toRat_magnitude] at htop hbottom ⊢
  exact orderFrom_spec (magnitude_den_pos v) 83 htop hbottom

/-- Settles O49: the value by `toRat_magnitude`, the order by the search in its range. -/
theorem orderOfMagnitudeIsExact : Obligations.OrderOfMagnitudeIsExact := by
  unfold Obligations.OrderOfMagnitudeIsExact
  exact fun v h => ⟨toRat_magnitude v, order_magnitude_spec h⟩

/-- Powers of ten below and above one value have exponents in that order. -/
theorem exp_lt_of_tenPow_le_of_lt {V : ℚ} {p q : ℤ} (hp : (10 : ℚ) ^ p ≤ V) (hq : V < (10 : ℚ) ^ q) : p < q :=
  (zpow_lt_zpow_iff_right₀ (by norm_num)).1 (hp.trans_lt hq)

/-- A value has only one order of magnitude. -/
theorem order_magnitude_eq {v : BitVec 32} {p : ℤ} (h : classify v = .finite) (hlo : (10 : ℚ) ^ p ≤ floatValue v)
    (hhi : floatValue v < (10 : ℚ) ^ (p + 1)) : order (magnitude v) = p := by
  obtain ⟨hle, hlt, -⟩ := order_magnitude_spec h
  have h1 := exp_lt_of_tenPow_le_of_lt hlo hlt
  have h2 := exp_lt_of_tenPow_le_of_lt hle hhi
  omega

/-! ### The choice of form, the scaled value and its digits, as rational arithmetic (R206, R208). -/

section
variable {V : Frac}

theorem isSci_iff (hd : 0 < V.den) (n : Nat) :
    isSci n V = true ↔ V.toRat < 1 / 1000 ∨ V.toRat > (10 : ℚ) ^ n - 1 := by
  have hd' : (0 : ℚ) < V.den := by exact_mod_cast hd
  have hsmall : V.num * 1000 < V.den ↔ V.toRat < 1 / 1000 := by
    rw [Frac.toRat, div_lt_div_iff₀ hd' (by norm_num), one_mul]
    norm_cast
  have hlarge : V.num > (10 ^ n - 1) * V.den ↔ V.toRat > (10 : ℚ) ^ n - 1 := by
    rw [Frac.toRat, gt_iff_lt, gt_iff_lt, lt_div_iff₀ hd', ← Nat.cast_lt (α := ℚ), Nat.cast_mul,
      Nat.cast_pred (by positivity), Nat.cast_pow, Nat.cast_ofNat]
  rw [isSci, Bool.or_eq_true, decide_eq_true_eq, decide_eq_true_eq, hsmall, hlarge]

theorem divPow10_den_pos (hd : 0 < V.den) (q : ℤ) : 0 < (V.divPow10 q).den :=
  Nat.mul_pos hd (by positivity)

theorem toRat_divPow10 (V : Frac) (q : ℤ) : (V.divPow10 q).toRat = V.toRat / (10 : ℚ) ^ q := by
  obtain ⟨n, rfl | rfl⟩ := Int.eq_nat_or_neg q
  · simp [Frac.divPow10, Frac.toRat, div_div]
  · simp [Frac.divPow10, Frac.toRat, div_mul_eq_mul_div]

/-- V / 10^q with the bias added once, and the exponent it leaves (R208): the value both forms take their digits from. -/
def scaled (V : Frac) (q : ℤ) : Frac × ℤ := bias (V.divPow10 q) q

theorem scaled_den_pos (hd : 0 < V.den) (q : ℤ) : 0 < (scaled V q).1.den :=
  (bias_spec (divPow10_den_pos hd q) q).1

/-- The bias step of R208 on V / 10^q, with its renormalisation at ten. -/
theorem scaled_spec (hd : 0 < V.den) (q : ℤ) :
    let w := V.toRat / (10 : ℚ) ^ q + 1 / 1000000
    (10 ≤ w → (scaled V q).1.toRat = w / 10 ∧ (scaled V q).2 = q + 1) ∧
      (w < 10 → (scaled V q).1.toRat = w ∧ (scaled V q).2 = q) := by
  rw [← toRat_divPow10]
  exact (bias_spec (divPow10_den_pos hd q) q).2

/-- Digit i of a fraction is taken from its truncation after k - 1 decimals (R208). -/
theorem getElem?_digits {W : Frac} {k i : Nat} (hi : i < k) :
    (digits W k)[i]? = some (digitAt ⌊W.toRat * (10 : ℚ) ^ (k - 1)⌋₊ (k - 1 - i)) := by
  have hfloor : ⌊W.toRat * (10 : ℚ) ^ (k - 1)⌋₊ = W.num * 10 ^ (k - 1) / W.den := by
    rw [← Nat.floor_div_eq_div (K := ℚ), Frac.toRat, div_mul_eq_mul_div]
    push_cast
    rfl
  rw [digits, getElem?_digitsOf hi, hfloor]

theorem length_digits (W : Frac) (k : Nat) : (digits W k).length = k := length_digitsOf _ _

end

theorem digitCells_fltNeg (v : BitVec 32) : digitCells (fltNeg v) = if fltNeg v then 5 else 6 := rfl

/-! ### The fixed form (R209). -/

/-- The fixed form as a function. Unfolded at an operand, the kernel would evaluate the comparison inside `bias`; between
functions it compares the two bodies only. -/
theorem fltFixed_eq_fun : fltFixed = fun neg V =>
    match bias (V.divPow10 (max (order V) 0)) (max (order V) 0) with
    | (W, pp) => frameOf (signCells neg ++ digitGlyphs pp.toNat (digits W (digitCells neg))) := rfl

/-- The fixed form of the scaled value. With `b` a variable no proof step has the comparison inside `bias` to evaluate. -/
theorem fltFixed_of_scaled {neg : Bool} {V : Frac} {b : Frac × ℤ} (hb : scaled V (max (order V) 0) = b) :
    fltFixed neg V = frameOf (signCells neg ++ digitGlyphs b.2.toNat (digits b.1 (digitCells neg))) := by
  rw [scaled] at hb
  rw [fltFixed_eq_fun]
  beta_reduce
  rw [hb]

theorem fltFixed_cell_zero (V : Frac) : (fltFixed true V).cell 0 = minus := by
  rw [fltFixed_of_scaled rfl]
  rfl

theorem fltFixed_cell_digit (neg : Bool) (V : Frac) {i : Nat} {c : CellIdx} (hi : i < digitCells neg)
    (hc : c.val = 6 - digitCells neg + i) :
    (fltFixed neg V).cell c =
      dig (digitAt ⌊(scaled V (max (order V) 0)).1.toRat * (10 : ℚ) ^ (digitCells neg - 1)⌋₊
        (digitCells neg - 1 - i)) ||| (if i = (scaled V (max (order V) 0)).2.toNat then 0x80 else 0x00) := by
  rw [fltFixed_of_scaled rfl, frameOf_signCells_cell neg _ hc, List.getD_eq_getElem?_getD, getElem?_digitGlyphs,
    getElem?_digits hi]
  rfl

theorem floatFrame_of_fixed {v : BitVec 32} (h : classify v = .finite)
    (hform : ¬ (floatValue v < 1 / 1000 ∨ floatValue v > (10 : ℚ) ^ digitCells (fltNeg v) - 1)) :
    floatFrame v = fltFixed (fltNeg v) (magnitude v) := by
  rw [← toRat_magnitude, ← isSci_iff (magnitude_den_pos v)] at hform
  rw [floatFrame, h]
  exact if_neg hform

/-- The bias cannot carry a value of n integer digits to n + 1: such a value ends at 10^n - 1, further from 10^n than the
bias reaches (R209). -/
theorem no_carry_in_top_decade {V : ℚ} {n : Nat} (hn : n = 5 ∨ n = 6) (hmax : V ≤ (10 : ℚ) ^ n - 1) :
    V / (10 : ℚ) ^ ((n : ℤ) - 1) + 1 / 1000000 < 10 := by
  rcases hn with rfl | rfl <;> norm_num at hmax ⊢ <;> linarith

/-- The point of the fixed form is on one of its n digits (R209). -/
theorem scaled_exp_le {V : Frac} (hd : 0 < V.den) {n : Nat} {p : ℤ} (hn : n = 5 ∨ n = 6)
    (hlo : (10 : ℚ) ^ p ≤ V.toRat) (hmax : V.toRat ≤ (10 : ℚ) ^ n - 1) :
    0 ≤ (scaled V (max p 0)).2 ∧ (scaled V (max p 0)).2 ≤ (n : ℤ) - 1 := by
  have hlt : V.toRat < (10 : ℚ) ^ (n : ℤ) := by rw [zpow_natCast]; linarith
  have hp := exp_lt_of_tenPow_le_of_lt hlo hlt
  obtain ⟨hcarry, hplain⟩ := scaled_spec hd (max p 0)
  rcases le_or_gt 10 (V.toRat / (10 : ℚ) ^ max p 0 + 1 / 1000000) with hw | hw
  · have hne : max p 0 ≠ (n : ℤ) - 1 := fun htop => by
      rw [htop] at hw
      exact hw.not_gt (no_carry_in_top_decade hn hmax)
    rw [(hcarry hw).2]
    omega
  · rw [(hplain hw).2]
    omega

/-- Settles O50: the form is `fltFixed` at the order p, its digits those of the scaled value. -/
theorem fixedFloatsFollowTheRationalRule : Obligations.FixedFloatsFollowTheRationalRule := by
  unfold Obligations.FixedFloatsFollowTheRationalRule
  rintro v n first p V hfin rfl hn rfl hlo hhi hform
  rw [← digitCells_fltNeg] at hn
  subst hn
  have hd := magnitude_den_pos v
  have horder := order_magnitude_eq hfin hlo hhi
  rw [floatFrame_of_fixed hfin hform]
  rw [← toRat_magnitude] at hlo hform ⊢
  obtain ⟨hpos, hle⟩ := scaled_exp_le hd (digitCells_eq _) hlo (not_lt.1 fun h => hform (.inr h))
  refine ⟨(scaled (magnitude v) (max p 0)).2.toNat, (scaled (magnitude v) (max p 0)).1.toRat, ?bias, by omega, ?sign,
    fun i c hi hc => ?digits⟩
  case bias =>
    rw [Int.toNat_of_nonneg hpos]
    exact scaled_spec hd (max p 0)
  case sign =>
    intro hneg
    rw [hneg]
    exact fltFixed_cell_zero _
  case digits =>
    rw [fltFixed_cell_digit _ _ hi hc, horder]
    rfl

/-! ### The scientific form (R210). -/

/-- The scientific form as a function, for the reason given at `fltFixed_eq_fun`. -/
theorem fltSci_eq_fun : fltSci = fun neg V =>
    match bias (V.divPow10 (order V)) (order V) with
    | (W, e) => sciFrame neg (digits W (digitCells neg - (expCells e).length)) e := rfl

/-- The scientific form of the scaled value. -/
theorem fltSci_of_scaled {neg : Bool} {V : Frac} {b : Frac × ℤ} (hb : scaled V (order V) = b) :
    fltSci neg V = sciFrame neg (digits b.1 (digitCells neg - (expCells b.2).length)) b.2 := by
  rw [scaled] at hb
  rw [fltSci_eq_fun]
  beta_reduce
  rw [hb]

theorem floatFrame_of_scientific {v : BitVec 32} (h : classify v = .finite)
    (hform : floatValue v < 1 / 1000 ∨ floatValue v > (10 : ℚ) ^ digitCells (fltNeg v) - 1) :
    floatFrame v = fltSci (fltNeg v) (magnitude v) := by
  rw [← toRat_magnitude, ← isSci_iff (magnitude_den_pos v)] at hform
  rw [floatFrame, h]
  exact if_pos hform

/-- The exponent leaves at least one cell to the mantissa. -/
theorem length_expCells_lt_digitCells (neg : Bool) (e : ℤ) : (expCells e).length < digitCells neg := by
  have hn := digitCells_eq neg
  rw [length_expCells]
  split_ifs <;> omega

/-- The exponent cells end in cell 5 (R210). -/
theorem sciFrame_getElem?_expCells {neg : Bool} {ds : List (Fin 10)} {e : ℤ}
    (hlen : ds.length = digitCells neg - (expCells e).length) {j : Nat} {c : CellIdx}
    (hc : c.val = 6 - digitCells neg + ds.length + j) :
    (expCells e)[j]? = some ((sciFrame neg ds e).cell c) := by
  have hlt := length_expCells_lt_digitCells neg e
  have hn := digitCells_eq neg
  have hj : j < (expCells e).length := by omega
  rw [sciFrame_cell_exp hc, List.getD_eq_getElem?_getD, List.getElem?_eq_getElem hj, Option.getD_some]

/-- Settles O51: the form is `fltSci` at the order p, its mantissa the digits of the scaled value and its layout that of
the exponent after the bias. -/
theorem scientificFloatsFollowTheRationalRule : Obligations.ScientificFloatsFollowTheRationalRule := by
  unfold Obligations.ScientificFloatsFollowTheRationalRule
  rintro v n first p V hfin rfl hn rfl hlo hhi hform
  rw [← digitCells_fltNeg] at hn
  subst hn
  have hd := magnitude_den_pos v
  have horder := order_magnitude_eq hfin hlo hhi
  have hroom := length_expCells_lt_digitCells (fltNeg v) (scaled (magnitude v) p).2
  rw [floatFrame_of_scientific hfin hform, fltSci_of_scaled rfl, horder, ← toRat_magnitude]
  refine ⟨(scaled (magnitude v) p).2, _, (scaled (magnitude v) p).1.toRat, scaled_spec hd p, rfl, by omega, ?sign,
    fun i c hi hc => ?digits, fun j c hc => ?exponent⟩
  case sign =>
    intro hneg
    rw [hneg]
    exact sciFrame_cell_zero _ _
  case digits => exact sciFrame_cell_digit (getElem?_digits hi) hc
  case exponent => exact sciFrame_getElem?_expCells (length_digits _ _) (by rwa [length_digits])

end Sys2Proof.Machine
end

section
/-! Every step has a next state, and a refusal changes nothing (60_exceptions.md R230, R231, R234;
70_reset_and_hazards.md R275; 93_implementation_defined.md). -/

namespace Sys2Proof.Machine

/-! ### No turn faults or is refused a meaning. -/

theorem commandStep_next (w : CmdWord) (s : State) : ∃ t, commandStep w s = .next t := by
  cases hdec : decodeCommand w with
  | ok i =>
    rw [commandStep_ok hdec]
    exact exec_next i s
  | error r => exact ⟨_, commandStep_error hdec s⟩

theorem eventTurn_next (e : EvtWord) (s : State) : ∃ t, eventTurn e s = .next t := by
  rcases eventWord_cases e with rfl | rfl | rfl | rfl
  · exact ⟨s, eventTurn_none s⟩
  · exact exec_next .tick1hz s
  · exact exec_next .tickmux s
  · exact exec_next .tick1hz _

theorem runSlot_command_next {s : State} (hrst : s.rstN = true) : ∃ t, runSlot .command s = .next t := by
  cases hflight : s.flight with
  | some f => exact ⟨_, runSlot_busy hrst hflight⟩
  | none =>
    cases hcmds : s.cmds with
    | nil => exact ⟨_, runSlot_idle hrst hflight hcmds⟩
    | cons w ws =>
      rw [runSlot_accept hrst hflight hcmds]
      exact commandStep_next w _

/-- Every slot has a next state, under reset as well. -/
theorem runSlot_next (slot : Slot) (s : State) : ∃ t, runSlot slot s = .next t := by
  cases slot with
  | rst level => exact ⟨_, rfl⟩
  | command =>
    cases hrst : s.rstN with
    | true => exact runSlot_command_next hrst
    | false => exact ⟨_, runSlot_underReset hrst nofun⟩
  | events e =>
    cases hrst : s.rstN with
    | true =>
      rw [runSlot_events hrst]
      exact eventTurn_next e s
    | false => exact ⟨_, runSlot_underReset hrst nofun⟩

/-- Settles O9: a step is a slot, and every slot has a next state. -/
theorem everyStepHasANextState : Obligations.EveryStepHasANextState := by
  unfold Obligations.EveryStepHasANextState
  intro s
  obtain ⟨slot, rest, hslot⟩ := step_cases s
  rw [hslot]
  exact runSlot_next slot _

/-! ### What the command agent can answer. -/

/-- `Answer s t`: what a turn of the command agent from `s` to `t` can do to the response port. -/
inductive Answer (s t : State) : Prop where
  /-- No response (R188): nothing to do, or a format command goes on. -/
  | quiet (h : t.rsp = s.rsp)
  /-- The response OK (R75). -/
  | ok (d : BitVec 64) (h : t.rsp = some ⟨.ok, d⟩)
  /-- A refusal, which writes the response port alone, once the word is taken (R230). -/
  | refusal (r : Reject) (ws : List CmdWord) (h : t = raise r { s with cmds := ws })

/-- A command word is executed, with a response or the start of a write-out, or refused (R79). -/
theorem commandStep_answer {w : CmdWord} {ws : List CmdWord} {s t : State}
    (h : commandStep w { s with cmds := ws } = .next t) : Answer s t := by
  cases hdec : decodeCommand w with
  | error r =>
    rw [commandStep_error hdec] at h
    cases h
    exact .refusal r ws rfl
  | ok i =>
    rw [commandStep_ok hdec] at h
    obtain ⟨hname, -⟩ := names_of_decodeCommand hdec
    by_cases hwf : i.wf = true
    · rcases hname.exec_ok hwf { s with cmds := ws } with ⟨-, -, u, d, hexec, hrsp⟩ | ⟨-, c, hexec⟩
      · cases hexec.symm.trans h
        exact .ok d hrsp
      · cases hexec.symm.trans h
        exact .quiet rfl
    · cases (hname.exec_illegalArg hwf _).symm.trans h
      exact .refusal .illegalArg ws rfl

theorem writeNextCell_answer (f : FrameWrite) (s : State) : Answer s (writeNextCell f s) := by
  by_cases hlast : f.advance.isSome
  · exact .quiet (by rw [writeNextCell_rsp, if_pos hlast])
  · exact .ok 0 (by rw [writeNextCell_rsp, if_neg hlast])

theorem runSlot_command_answer {s t : State} (hrst : s.rstN = true) (h : runSlot .command s = .next t) :
    Answer s t := by
  cases hflight : s.flight with
  | some f =>
    cases (runSlot_busy hrst hflight).symm.trans h
    exact writeNextCell_answer f s
  | none =>
    cases hcmds : s.cmds with
    | nil =>
      cases (runSlot_idle hrst hflight hcmds).symm.trans h
      exact .quiet rfl
    | cons w ws => exact commandStep_answer ((runSlot_accept hrst hflight hcmds).symm.trans h)

/-- Settles O7: of what the command agent can answer, a status other than OK is a `raise`. -/
theorem refusedCommandsChangeNothing : Obligations.RefusedCommandsChangeNothing := by
  unfold Obligations.RefusedCommandsChangeNothing
  intro s t rest r hrst hsched hstep hrsp hstatus
  rw [step_of_schedule hsched] at hstep
  cases runSlot_command_answer (by exact hrst) hstep with
  | quiet h => cases h.symm.trans hrsp
  | ok d h =>
    cases h.symm.trans hrsp
    exact absurd rfl hstatus
  | refusal reject ws h =>
    subst h
    cases hrsp
    exact ⟨rfl, rfl, rfl⟩

end Sys2Proof.Machine
end

section
/-! Ticks are counted whatever the command agent does meanwhile (60_exceptions.md R234, R236; 10_state.md R34). -/

namespace Sys2Proof.Machine

/-! ### Runs that count ticks. -/

/-- CURSOR after one more refresh tick of the running display (R120). -/
def nextCursor (c : BitVec 3) : BitVec 3 := BitVec.ofNat 3 ((c.toNat + 1) % 6)

theorem toNat_iterate_nextCursor {c : BitVec 3} (hc : c.toNat < 6) (n : Nat) :
    (nextCursor^[n] c).toNat = (c.toNat + n) % 6 := by
  induction n with
  | zero => exact (Nat.mod_eq_of_lt hc).symm
  | succ n ih =>
    rw [Function.iterate_succ_apply', nextCursor, cursor_advance_toNat, ih]
    omega

/-- `k` steps take `s` to `t` and count `m` seconds and `n` refresh ticks, the latter only while the display runs. -/
structure CountingRun (k m n : Nat) (s t : State) : Prop where
  run : runSteps k s = .next t
  wall : t.wall = cascade^[m] s.wall
  muxOn : t.muxOn = s.muxOn
  running : s.muxOn = true → t.cursor = nextCursor^[n] s.cursor
  suspended : s.muxOn = false → t.cursor = s.cursor

theorem countingRun_zero (s : State) : CountingRun 0 0 0 s s :=
  ⟨rfl, rfl, rfl, fun _ => rfl, fun _ => rfl⟩

/-- A step that leaves the clock and the scan alone counts nothing. -/
theorem countingRun_one {s t : State} (h : step s = .next t) (hwall : t.wall = s.wall) (hmux : t.muxOn = s.muxOn)
    (hcursor : t.cursor = s.cursor) : CountingRun 1 0 0 s t :=
  ⟨runSteps_succ h 0, hwall, hmux, fun _ => hcursor, fun _ => hcursor⟩

theorem CountingRun.trans {k m n k' m' n' : Nat} {s t u : State} (h : CountingRun k m n s t)
    (h' : CountingRun k' m' n' t u) : CountingRun (k + k') (m + m') (n + n') s u where
  run := (runSteps_add h.run k').trans h'.run
  wall := by rw [h'.wall, h.wall, ← Function.iterate_add_apply, Nat.add_comm]
  muxOn := h'.muxOn.trans h.muxOn
  running hm := by rw [h'.running (h.muxOn.trans hm), h.running hm, ← Function.iterate_add_apply, Nat.add_comm]
  suspended hm := (h'.suspended (h.muxOn.trans hm)).trans (h.suspended hm)

/-! ### Turns that take no word of the host. -/

/-- How many cells a write-out has still to write (R34). -/
def cellsLeft (flight : Option FrameWrite) : Nat := flight.elim 0 fun f => 6 - f.next.val

theorem cellsLeft_advance (f : FrameWrite) : cellsLeft f.advance + 1 = cellsLeft (some f) := by
  by_cases hnext : f.next.val + 1 < 6
  · rw [advance_of_lt hnext]
    simp only [cellsLeft, Option.elim_some]
    omega
  · have hlast : f.next.val = 5 := by omega
    simp [advance_of_last hlast, cellsLeft, hlast]

/-- Reset is released, the slots `sched` come next, and the next `turns` turns of the command agent take no word of the
host: none waits, or the write-out in flight needs all those turns. -/
structure NoCommandFor (turns : Nat) (sched : List Slot) (s : State) : Prop where
  rstN : s.rstN = true
  schedule : s.schedule = sched
  room : s.cmds = [] ∨ turns ≤ cellsLeft s.flight

section
variable {turns : Nat} {sched rest : List Slot} {s : State}

theorem NoCommandFor.takeSlot (hs : NoCommandFor turns sched s) (rest : List Slot) :
    NoCommandFor turns rest (afterSlot rest s) :=
  ⟨hs.rstN, rfl, hs.room⟩

/-- A turn of the command agent writes a cell or does nothing. -/
theorem NoCommandFor.countingRun_command (hs : NoCommandFor (turns + 1) (.command :: rest) s) :
    ∃ t, CountingRun 1 0 0 s t ∧ NoCommandFor turns rest t := by
  have hslot := step_of_schedule hs.schedule
  cases hflight : s.flight with
  | some f =>
    have hstep := hslot.trans (runSlot_busy (by exact hs.rstN) (by exact hflight))
    refine ⟨_, countingRun_one hstep rfl rfl rfl, hs.rstN, rfl, hs.room.imp_right fun hturns => ?_⟩
    have hleft := cellsLeft_advance f
    rw [hflight] at hturns
    rw [writeNextCell_flight]
    omega
  | none =>
    have hcmds : s.cmds = [] := hs.room.resolve_right (by simp [hflight, cellsLeft])
    have hstep := hslot.trans (runSlot_idle (by exact hs.rstN) (by exact hflight) (by exact hcmds))
    exact ⟨_, countingRun_one hstep rfl rfl rfl, hs.rstN, rfl, .inl hcmds⟩

/-- TICK1HZ counts a second, whatever the command agent is doing (R144, R234). -/
theorem NoCommandFor.countingRun_second (hs : NoCommandFor turns sched s)
    (hstep : step s = exec .tick1hz (afterSlot rest s)) :
    ∃ t, CountingRun 1 1 0 s t ∧ NoCommandFor turns rest t :=
  have hnext := hstep.trans (exec_tick1hz _)
  ⟨_, ⟨runSteps_succ hnext 0, rfl, rfl, fun _ => rfl, fun _ => rfl⟩, hs.rstN, rfl, hs.room⟩

/-- TICKMUX counts a refresh tick while the display runs, whatever the command agent is doing (R120, R122, R234). -/
theorem NoCommandFor.countingRun_refresh (hs : NoCommandFor turns sched s)
    (hstep : step s = exec .tickmux (afterSlot rest s)) :
    ∃ t, CountingRun 1 0 1 s t ∧ NoCommandFor turns rest t := by
  cases hm : s.muxOn with
  | true =>
    have hlt : (s.cursor.toNat + 1) % 6 < 6 := Nat.mod_lt _ (by decide)
    have hnext := hstep.trans (exec_tickmux_running (by exact hm) (c := ⟨_, hlt⟩) rfl)
    exact ⟨_, ⟨runSteps_succ hnext 0, rfl, rfl, fun _ => rfl, by simp [hm]⟩, hs.rstN, rfl, hs.room⟩
  | false =>
    have hnext := hstep.trans (exec_tickmux_suspended (by exact hm))
    exact ⟨_, ⟨runSteps_succ hnext 0, rfl, rfl, by simp [hm], fun _ => rfl⟩, hs.takeSlot rest⟩

/-- The steps of an event word count its pulses (R77, R235). -/
theorem NoCommandFor.countingRun_eventWord {e : EvtWord} (hs : NoCommandFor turns (.events e :: rest) s) :
    ∃ t, CountingRun (eventSteps e) ((decodeEvents e).count .tick1hz) ((decodeEvents e).count .tickmux) s t ∧
      NoCommandFor turns rest t := by
  have hstep := step_events hs.rstN hs.schedule
  rcases eventWord_cases e with rfl | rfl | rfl | rfl
  · exact ⟨_, countingRun_one hstep rfl rfl rfl, hs.takeSlot rest⟩
  · exact hs.countingRun_second (hstep.trans (eventTurn_second _))
  · exact hs.countingRun_refresh (hstep.trans (eventTurn_refresh _))
  · obtain ⟨t, hst, ht⟩ := hs.countingRun_second (rest := .events 0b10 :: rest) (hstep.trans (eventTurn_both _))
    obtain ⟨u, htu, hu⟩ := ht.countingRun_refresh ((step_events ht.rstN ht.schedule).trans (eventTurn_refresh _))
    exact ⟨u, hst.trans htu, hu⟩

/-- How many pulses of the event `i` a list of event words holds. -/
def pulses (i : Instr) (es : List EvtWord) : Nat := (es.map fun e => (decodeEvents e).count i).sum

theorem pulses_cons (i : Instr) (e : EvtWord) (es : List EvtWord) :
    pulses i (e :: es) = (decodeEvents e).count i + pulses i es := List.sum_cons

theorem secondsIn_cons (es : List EvtWord) (gaps : List (List EvtWord)) :
    secondsIn (es :: gaps) = pulses .tick1hz es + secondsIn gaps := List.sum_cons

theorem refreshesIn_cons (es : List EvtWord) (gaps : List (List EvtWord)) :
    refreshesIn (es :: gaps) = pulses .tickmux es + refreshesIn gaps := List.sum_cons

theorem NoCommandFor.countingRun_eventWords {es : List EvtWord}
    (hs : NoCommandFor turns (es.map .events ++ rest) s) :
    ∃ t, CountingRun (es.map eventSteps).sum (pulses .tick1hz es) (pulses .tickmux es) s t ∧
      NoCommandFor turns rest t := by
  induction es generalizing s with
  | nil => exact ⟨s, countingRun_zero s, hs⟩
  | cons e es ih =>
    obtain ⟨t, hst, ht⟩ := hs.countingRun_eventWord
    obtain ⟨u, htu, hu⟩ := ih ht
    rw [List.map_cons, List.sum_cons, pulses_cons, pulses_cons]
    exact ⟨u, hst.trans htu, hu⟩

/-- Event words among turns that take no word of the host: every pulse is counted (R58, R234). -/
theorem NoCommandFor.countingRun_interleaved {gaps : List (List EvtWord)}
    (hs : NoCommandFor gaps.length (interleaved gaps) s) :
    ∃ t, CountingRun (interleavedSteps gaps) (secondsIn gaps) (refreshesIn gaps) s t := by
  induction gaps generalizing s with
  | nil => exact ⟨s, countingRun_zero s⟩
  | cons es gaps ih =>
    rw [interleaved_cons] at hs
    rw [interleavedSteps_cons, secondsIn_cons, refreshesIn_cons]
    obtain ⟨t, hst, ht⟩ := hs.countingRun_eventWords
    obtain ⟨u, htu, hu⟩ := ht.countingRun_command
    obtain ⟨v, huv⟩ := ih hu
    exact ⟨v, by simpa only [Nat.zero_add] using hst.trans (htu.trans huv)⟩

end

/-- Settles O42: no word of the host is taken among these turns, so every step is a tick, which is counted, or a cell
write or an idle turn, which leaves the clock and the scan alone. -/
theorem ticksAreNeverDeferredOrLost : Obligations.TicksAreNeverDeferredOrLost := by
  unfold Obligations.TicksAreNeverDeferredOrLost
  intro s f gaps hrst hflight hroom hcursor hsched
  have hquiet : NoCommandFor gaps.length (interleaved gaps) s :=
    ⟨hrst, hsched, hroom.imp_right fun hturns => by simp only [hflight, cellsLeft, Option.elim_some]; omega⟩
  obtain ⟨t, ht⟩ := hquiet.countingRun_interleaved
  refine ⟨t, ht.run, ht.wall, fun hm => ?_, ht.suspended, ht.muxOn⟩
  rw [ht.running hm, toNat_iterate_nextCursor hcursor]

end Sys2Proof.Machine
end

section
/-! Reset, and the response that every accepted command comes to (70_reset_and_hazards.md R260, R261, R275). -/

namespace Sys2Proof.Machine

/-! ### Reset (R260, R261; logs 2 and 5). -/

section
variable {s : State} {slot : Slot} {rest : List Slot}

theorem runSlot_assertReset (s : State) : runSlot (.rst false) s = .next (holdReset s) := rfl

theorem runSlot_releaseReset (hrst : s.rstN = false) :
    runSlot (.rst true) s = .next { holdReset s with rstN := true } := by
  simp [runSlot, resetTurn, hrst]

theorem step_assertReset (hsched : s.schedule = .rst false :: rest) :
    step s = .next (holdReset (afterSlot rest s)) :=
  (step_of_schedule hsched).trans (runSlot_assertReset _)

theorem step_underReset (hrst : s.rstN = false) (hsched : s.schedule = slot :: rest) (hslot : slot ≠ .rst true) :
    step s = .next (holdReset (afterSlot rest s)) :=
  (step_of_schedule hsched).trans (runSlot_underReset (by exact hrst) hslot)

theorem step_releaseReset (hrst : s.rstN = false) (hsched : s.schedule = .rst true :: rest) :
    step s = .next { holdReset (afterSlot rest s) with rstN := true } :=
  (step_of_schedule hsched).trans (runSlot_releaseReset (by exact hrst))

theorem step_idle_underReset (hrst : s.rstN = false) (hsched : s.schedule = []) :
    step s = .next (holdReset (afterSlot [] s)) :=
  (step_idle hsched).trans (runSlot_underReset (by exact hrst) nofun)

end

/-- Settles O53: under reset every slot but the release is `holdReset`, and the release changes the level alone. The second
after the reset time is not the DST instant. -/
theorem assertedResetHoldsEveryRegister : Obligations.AssertedResetHoldsEveryRegister := by
  unfold Obligations.AssertedResetHoldsEveryRegister
  refine ⟨?asserted, ?held, ?released, ?idle, ?firstSecond⟩
  case asserted =>
    intro s rest hsched
    exact step_assertReset hsched
  case held =>
    intro s slot rest hrst hsched hslot
    exact step_underReset hrst hsched hslot
  case released =>
    intro s rest hrst hsched
    exact step_releaseReset hrst hsched
  case idle =>
    intro s hrst hsched
    exact step_idle_underReset hrst hsched
  case firstSecond => exact exec_tick1hz_of_not_instant rfl (by decide)

/-! ### Accepted commands on an empty schedule (R275; log 2). -/

theorem step_idle_eq_step_command {s : State} (hsched : s.schedule = []) :
    step s = step { s with schedule := [.command] } := by
  rw [step_idle hsched, step_of_schedule rfl]
  rfl

/-- A write-out on an empty schedule responds within as many steps as it has cells left (R188; log 4). -/
theorem WritingOut.respondsWithin_idle {f : FrameWrite} {ws : List CmdWord} {s : State} {n : Nat}
    (hs : WritingOut f ws [] s) (hsteps : 6 ≤ f.next.val + n) : RespondsWithin n ws s := by
  induction n generalizing f s with
  | zero => exact absurd f.next.isLt (Nat.not_lt.2 hsteps)
  | succ n ih =>
    obtain ⟨c, next⟩ := f
    simp only at hsteps
    by_cases hnext : next.val + 1 < 6
    · rw [Nat.add_comm]
      refine .after ?_ (quietRun_one (step_idle_writeCell hs.rstN hs.flight hs.schedule hnext) rfl)
      exact ih ⟨hs.rstN, rfl, hs.cmds, rfl⟩ (by simp only; omega)
    · obtain rfl : next = 5 := Fin.ext (show next.val = 5 by omega)
      have hstep := step_idle_writeLastCell hs.rstN hs.flight hs.schedule
      exact respondsWithin_of_step hstep rfl hs.cmds (by omega)

/-- Settles O6: the instruction responds in its own step or puts a frame in flight, whose six cells the idle turns after it
write. -/
theorem acceptedCommandsRespondOnAnEmptySchedule : Obligations.AcceptedCommandsRespondOnAnEmptySchedule := by
  unfold Obligations.AcceptedCommandsRespondOnAnEmptySchedule
  refine ⟨fun s => step_idle_eq_step_command, ?_⟩
  intro s w ws i hready hsched hcmds hdec hwf
  have hstep : step s = exec i { s with cmds := ws, rsp := none } := by
    rw [step_idle_command hready hsched hcmds hdec, hsched]
  refine ⟨hstep, ?_⟩
  have hresponds : RespondsWithin (1 + 6) ws s := by
    obtain ⟨hname, -⟩ := names_of_decodeCommand hdec
    rcases hname.exec_ok hwf { s with cmds := ws, rsp := none } with ⟨-, -, t, d, hexec, hrsp⟩ | ⟨-, c, hexec⟩
    · exact respondsWithin_of_step (hstep.trans hexec) hrsp (exec_keeps_inputs hexec).1 (by decide)
    · have hwriting : WritingOut ⟨c, 0⟩ ws [] (startFormat c { s with cmds := ws, rsp := none }) :=
        ⟨hready.1, rfl, rfl, hsched⟩
      exact (hwriting.respondsWithin_idle (by simp)).after (quietRun_one (hstep.trans hexec) rfl)
  obtain ⟨k, t, d, -, hfirst⟩ := hresponds
  exact ⟨k, t, d, hfirst⟩

end Sys2Proof.Machine
end
